-- ==== Sys2Proof/Word.lean ====
section
/-! DEFINITION. The one word type of the machine: the byte. Every memory cell, register, opcode and operand is 8 bits
wide and unsigned, and no value is wider (spec R7, R55). -/

namespace Sys2Proof

/-- A byte: 8 bits, an unsigned integer 0..255 (R7). -/
abbrev Byte := BitVec 8

/-- `v mod 256` as a byte: the one reduction the machine knows (R8, R24, R136). -/
def byteOf (v : Nat) : Byte := BitVec.ofNat 8 v

end Sys2Proof
end

