-- ==== Sys2Proof/Config.lean ====
section
/-! DEFINITION. What the spec leaves open, as constants without a body: nothing in Lean can evaluate one or prove a
value of it. The fixed parameters of Table R5 (256 cells, 8 registers, 8 bits, at most 2 operand bytes) are written as
numerals where the rules write them; R5 lets a model name them and asks for no name. -/

namespace Sys2Proof

/-- The open parameter `REG_RESET` (R5, R40): the value register `i` (0..7) holds after the reset that
`Machine.State.reset` stands for. No value is given, and "a model must not assume zero". DESIGN CHOICE, log entry 1. Unsafe only in
that one reset state has one such value; no proof can see which. -/
opaque Config.regReset : Nat → Byte

/-- What cell `addr` holds after a load of more than 256 bytes, `offered`, was turned away: "any value" in every cell
(R53, decision D11). DESIGN CHOICE, log entry 2. Unsafe only in that equal failed loads leave equal memories. -/
opaque Config.memAfterFailedLoad (offered : List Byte) (addr : Nat) : Byte

end Sys2Proof
end

