-- ==== Sys2Proof/Machine/State.lean ====
section
/-! DEFINITION. The architectural state, exactly the six items of R20, and its reset value (10_state.md). -/

namespace Sys2Proof.Machine

/-- The ALU's operation tag (R133, decision D15). -/
inductive AluTag where
  | add
  | mul
  | other (k : Nat)
deriving DecidableEq, Repr

/-- The engine state (R31). -/
inductive EngineState where
  | running
  | halted
  | faulted
deriving DecidableEq, Repr

/-- The five fault kinds (R170). -/
inductive FaultKind where
  | invalidOpcode
  | unsupportedOperation
  | outOfBoundsAccess
  | programTooLarge
  | invalidRegister
deriving DecidableEq, Repr

/-- The `value` of a fault record (R32): the integer the fault concerns (R171, R173 to R175), or for
UnsupportedOperation the tag, an abstract type with no number (R133, R172). DEDUCED, log entry 7, safe. -/
inductive FaultValue where
  | int (v : Int)
  | tag (t : AluTag)
deriving DecidableEq, Repr

/-- The fault record: kind, value, and `pc` at the start of the faulting cycle (R32). -/
structure FaultRecord where
  kind : FaultKind
  value : FaultValue
  pc : Nat
deriving DecidableEq, Repr

/-- The contents of memory: the cells that do not hold zero, addresses strictly rising. A cell not listed holds 0, the
value every cell has after reset (R44). DESIGN CHOICE of the form, log entry 8, safe. -/
abbrev Memory := List Host.Cell

/-- The whole state of the core (R20). -/
structure State where
  /-- 256 byte cells (R36). -/
  mem : Memory
  /-- The 8 general registers (R21). -/
  x : Vector Byte 8
  /-- The program counter, an integer 0..256 that nothing reduces (R27). DESIGN CHOICE of the type, log entry 6, safe. -/
  pc : Nat
  /-- The engine state (R31). -/
  state : EngineState
  /-- The fault record, `none` until a fault is taken (R32). -/
  fault : Option FaultRecord
  /-- What PRN has emitted since reset, oldest first (R38). -/
  out : List Byte
deriving DecidableEq, Repr

/-- Why `step` runs no cycle. The five faults of the machine itself are not here: taking one is a next state, with
`state` and `fault` written as R178 says. -/
inductive Fault where
  /-- `step` raises it when the engine is HALTED: no cycle runs there and a further one is not defined (R106, R108).
  DEDUCED, log entry 4. Safe: the model stops where the machine does nothing more. -/
  | halted
  /-- `step` raises it when the engine is FAULTED, for the same reason (R106, R108). DEDUCED, log entry 4.
  Safe. -/
  | faulted
deriving DecidableEq, Repr

/-- Why an instruction is turned away: no instruction of this model is. -/
inductive Refusal where
  /-- Raised by no arm: every instruction has its meaning. It would be safe: the model would stop. -/
  | notModelled (mnemonic : String)
deriving DecidableEq, Repr

/-- The state after a reset that leaves the registers at `regReset`, the open parameter REG_RESET (R40 to R45, R200).
The spec's reset: a claim about reset is a claim about this, for every `regReset`. -/
def State.resetWith (regReset : Vector Byte 8) : State where
  mem := []
  x := regReset
  pc := 0
  state := .running
  fault := none
  out := []

/-- The machine right after reset, its registers at the value of REG_RESET that `Config.regReset` stands for and
nothing can evaluate (R40). DESIGN CHOICE, log entry 1, unsafe in that it is one state. -/
def State.reset : State :=
  State.resetWith #v[Config.regReset 0, Config.regReset 1, Config.regReset 2, Config.regReset 3,
    Config.regReset 4, Config.regReset 5, Config.regReset 6, Config.regReset 7]

end Sys2Proof.Machine
end

