-- ==== Sys2Proof/Machine/Memory.lean ====
section
/-! DEFINITION. Memory contents as plain data: reading a cell, writing a cell, and the canonical form that makes equal
memories equal lists. Addresses here are already in range; the range check is in Ops.lean (R50, R51). -/

namespace Sys2Proof.Machine

/-- The byte the cell at `a` holds; a cell not listed holds 0 (R44). -/
def Memory.read (a : Nat) : Memory → Byte
  | [] => 0#8
  | (k, v) :: rest => if a = k then v else Memory.read a rest

/-- A cell in front of the cells above it, unless it holds what an unlisted cell holds. -/
def Memory.cons (a : Nat) (v : Byte) (m : Memory) : Memory :=
  if v = 0#8 then m else (a, v) :: m

/-- The memory with the cell at `a` holding `v` and no other cell changed. -/
def Memory.write (a : Nat) (v : Byte) : Memory → Memory
  | [] => Memory.cons a v []
  | (k, w) :: rest =>
    if a < k then Memory.cons a v ((k, w) :: rest)
    else if a = k then Memory.cons a v rest
    else (k, w) :: Memory.write a v rest

/-- The memory with the bytes written at `a`, `a + 1`, … in that order. -/
def Memory.writeBytes (m : Memory) (a : Nat) : List Byte → Memory
  | [] => m
  | b :: rest => Memory.writeBytes (Memory.write a b m) (a + 1) rest

/-- The `n` cells from `a` up, each holding what `f` gives for its address; the cells below and above hold 0. -/
def Memory.fill (f : Nat → Byte) (a : Nat) : Nat → Memory
  | 0 => []
  | n + 1 => Memory.cons a (f a) (Memory.fill f (a + 1) n)

/-- Canonical from address `lo` up: addresses at least `lo`, below 256 and strictly rising, no cell listed as 0. -/
def Memory.wfFrom (lo : Nat) : Memory → Bool
  | [] => true
  | (k, v) :: rest => decide (lo ≤ k) && decide (k ≤ 255) && decide (v ≠ 0#8) && Memory.wfFrom (k + 1) rest

/-- The canonical form of a memory of 256 cells (R36). -/
def Memory.wf (m : Memory) : Bool := Memory.wfFrom 0 m

end Sys2Proof.Machine
end

