-- ==== Sys2Proof/Machine/Ops.lean ====
section
/-! DEFINITION. The named operations of Table R9 over the state: memory access, taking a fault, the output channel, the
program counter, and the loader. -/

namespace Sys2Proof.Machine

/-- What `raise K(info)` carries (R10): the fault's kind and value. The record's `pc` is added where it is taken. -/
structure Raise where
  kind : FaultKind
  value : FaultValue
deriving DecidableEq, Repr

/-- `MemRead(addr, 1)` for any integer `addr` (R50): in 0..255 the cell's byte, else OutOfBoundsAccess(addr). -/
def State.memRead (s : State) (addr : Int) : Except Raise Byte :=
  if 0 ≤ addr ∧ addr ≤ 255 then .ok (Memory.read addr.toNat s.mem)
  else .error ⟨.outOfBoundsAccess, .int addr⟩

/-- `MemWrite(addr, 1, v)` for any integer `addr` (R51). No instruction calls it (R65). -/
def State.memWrite (s : State) (addr : Int) (v : Byte) : Except Raise State :=
  if 0 ≤ addr ∧ addr ≤ 255 then .ok { s with mem := Memory.write addr.toNat v s.mem }
  else .error ⟨.outOfBoundsAccess, .int addr⟩

/-- Taking a fault, the whole of it (R178): `state <- FAULTED; fault <- (K, v, pc0)` and nothing else. There is no
handler, no vector and no way back but reset (R181). -/
def State.takeFault (s : State) (r : Raise) (pc0 : Nat) : State :=
  { s with state := .faulted, fault := some ⟨r.kind, r.value, pc0⟩ }

/-- The end of a handler that began in `s`: its final state, or the fault it raised, taken in `s`, which no handler has
changed by then (R104, R111, R178). -/
def State.conclude (s : State) : Except Raise State → Host.Outcome State Fault Refusal
  | .ok t => .next t
  | .error r => .next (s.takeFault r s.pc)

/-- `pc <- pc + n` (R105, R161): no wrap, no check; 256 can result and the next fetch then faults (R28). -/
def State.advance (s : State) (n : Nat) : State := { s with pc := s.pc + n }

/-- `Emit(v)`: the channel always accepts (R151, R152; decision D9). UNVERIFIED, log entry 9, unsafe for a sink that blocks. -/
def State.emit (s : State) (v : Byte) : State := { s with out := s.out ++ [v] }

/-- `state <- HALTED` (R160). -/
def State.halt (s : State) : State := { s with state := .halted }

/-- `Load(bytes)` (R52). More than 256 bytes raise ProgramTooLarge with record (ProgramTooLarge, L, 0) and leave any
value in every cell (R53). DESIGN CHOICE, log entry 2. -/
def State.load (s : State) (bytes : List Byte) : State :=
  if bytes.length ≤ 256 then { s with mem := Memory.writeBytes s.mem 0 bytes }
  else
    { s.takeFault ⟨.programTooLarge, .int bytes.length⟩ 0 with
      mem := Memory.fill (Config.memAfterFailedLoad bytes) 0 256 }

/-- The launch state for a program and a value of REG_RESET (R202). -/
def State.launch (regReset : Vector Byte 8) (bytes : List Byte) : State :=
  (State.resetWith regReset).load bytes

/-- The fault kind's number on a status port (R170, decision D4). No rule reads it. -/
def FaultKind.code : FaultKind → Nat
  | .invalidOpcode => 1
  | .unsupportedOperation => 2
  | .outOfBoundsAccess => 3
  | .programTooLarge => 4
  | .invalidRegister => 5

/-- The status port's fault number; 0 is no fault (R170, decision D4). -/
def State.faultCode (s : State) : Nat :=
  match s.fault with
  | none => 0
  | some r => r.kind.code

end Sys2Proof.Machine
end

