-- ==== Sys2Proof/Machine/Halt.lean ====
section
/-! DEFINITION. HLT (44_hlt_pc_control.md). -/

namespace Sys2Proof.Machine

/-- HLT: `state <- HALTED`, `pc` unchanged (R160). -/
def execHlt (s : State) : Host.Outcome State Fault Refusal :=
  s.conclude (.ok s.halt)

end Sys2Proof.Machine
end

