-- ==== Sys2Proof/Machine/Operands.lean ====
section
/-! DEFINITION. The operand forms. There are two: a register index, read or written through the register file with its
range check (R23, R24, R84), and LDI's immediate, the operand byte as it stands (R85), which needs no operation. -/

namespace Sys2Proof.Machine

/-- `x[i]` for any integer `i` (R23): in 0..7 the register's byte, else InvalidRegister(i). Never masked or clamped. -/
def State.readReg (s : State) (i : Int) : Except Raise Byte :=
  if h : 0 ≤ i ∧ i ≤ 7 then .ok (s.x[i.toNat]'(by omega))
  else .error ⟨.invalidRegister, .int i⟩

/-- `x[i] <- v` for any integer `i` and non-negative `v` (R24): in 0..7 the register takes `v mod 256`, else
InvalidRegister(i). -/
def State.writeReg (s : State) (i : Int) (v : Nat) : Except Raise State :=
  if h : 0 ≤ i ∧ i ≤ 7 then .ok { s with x := s.x.set i.toNat (byteOf v) (by omega) }
  else .error ⟨.invalidRegister, .int i⟩

end Sys2Proof.Machine
end

