-- ==== Sys2Proof/Machine/LoadImmediate.lean ====
section
/-! DEFINITION. LDI (41_ldi.md). -/

namespace Sys2Proof.Machine

/-- LDI: `x[a] <- b; pc <- pc + 3` (R120). -/
def execLdi (a b : Byte) (s : State) : Host.Outcome State Fault Refusal :=
  s.conclude do
    let t ← s.writeReg a.toNat b.toNat
    return t.advance 3

end Sys2Proof.Machine
end

