-- ==== Sys2Proof/Machine/Alu.lean ====
section
/-! DEFINITION. The ALU, a pure function of a tag and two bytes (R130, R134). It gives one byte and no flag: the machine
has none, so there is no Flags.lean (R30). -/

namespace Sys2Proof.Machine

/-- `Alu(tag, a, b)` (R130): ADD and MUL modulo 256 (R131, R132); any other tag raises UnsupportedOperation(tag)
(R133, R172). -/
def alu (tag : AluTag) (a b : Byte) : Except Raise Byte :=
  match tag with
  | .add => .ok (byteOf (a.toNat + b.toNat))
  | .mul => .ok (byteOf (a.toNat * b.toNat))
  | .other k => .error ⟨.unsupportedOperation, .tag (.other k)⟩

end Sys2Proof.Machine
end

