-- ==== Sys2Proof/Machine/Multiply.lean ====
section
/-! DEFINITION. MUL (42_alu_mul.md section 3). -/

namespace Sys2Proof.Machine

/-- MUL: `va = x[a]; vb = x[b]; r = Alu(MUL, va, vb); x[a] <- r; pc <- pc + 3` (R135). Index `a` is read, and so
checked, before `b` (decision D6). -/
def execMul (a b : Byte) (s : State) : Host.Outcome State Fault Refusal :=
  s.conclude do
    let va ← s.readReg a.toNat
    let vb ← s.readReg b.toNat
    let r ← alu .mul va vb
    let t ← s.writeReg a.toNat r.toNat
    return t.advance 3

end Sys2Proof.Machine
end

