-- ==== Sys2Proof/Machine/PrintRegister.lean ====
section
/-! DEFINITION. PRN (43_prn.md). -/

namespace Sys2Proof.Machine

/-- PRN: `va = x[a]; Emit(va); pc <- pc + 2` (R150). -/
def execPrn (a : Byte) (s : State) : Host.Outcome State Fault Refusal :=
  s.conclude do
    let va ← s.readReg a.toNat
    return (s.emit va).advance 2

end Sys2Proof.Machine
end

