-- ==== Sys2Proof/Syntax.lean ====
section
/-! DEFINITION. The instruction set, one constructor per row of spec/opcode_table.json (R86). The set is closed at
four (R90). Operands are whole bytes, as R84 says: a register index is all 8 bits of its byte, 8..255 included. -/

namespace Sys2Proof

/-- The four instructions (R81, R86). -/
inductive Instr where
  /-- `LDI Ra, v` (R120): `a` the destination's index, `b` the immediate. -/
  | ldi (a b : Byte)
  /-- `MUL Ra, Rb` (R135): `a` the index of the first source and destination, `b` that of the second source. -/
  | mul (a b : Byte)
  /-- `PRN Ra` (R150): `a` the index of the register to emit. -/
  | prn (a : Byte)
  /-- `HLT` (R160). -/
  | hlt
deriving DecidableEq, Repr

end Sys2Proof
end

