-- ==== Sys2Proof/Machine/Dispatch.lean ====
section
/-! DEFINITION. One arm per instruction: the handler the table entry names, with its operands (R104). The engine
state is not looked at here but in Step.lean: DESIGN CHOICE, log entry 5, safe. -/

namespace Sys2Proof.Machine

def exec (i : Instr) (s : State) : Host.Outcome State Fault Refusal :=
  match i with
  | .ldi a b => Sys2Proof.Machine.execLdi a b s
  | .mul a b => Sys2Proof.Machine.execMul a b s
  | .prn a => Sys2Proof.Machine.execPrn a s
  | .hlt => Sys2Proof.Machine.execHlt s

end Sys2Proof.Machine
end

