-- ==== Sys2Proof/Decode.lean ====
section
/-! DEFINITION. The opcode table, the decoder over it, and the encoder (30_encoding.md). -/

namespace Sys2Proof

/-- A table entry: the handler of an instruction, with the number of operand bytes it takes (R83, R90, R104). -/
inductive Handler where
  | nullary (i : Instr)
  | unary (build : Byte → Instr)
  | binary (build : Byte → Byte → Instr)

/-- The number of operand bytes, from the table entry and not from bits of the opcode (R83). -/
def Handler.arity : Handler → Nat
  | .nullary _ => 0
  | .unary _ => 1
  | .binary _ => 2

/-- The opcode table, whole: four entries, a constant (Table R86, R90). -/
def opcodeTable : List (Byte × Handler) :=
  [ (0x82#8, .binary .ldi),
    (0xA2#8, .binary .mul),
    (0x47#8, .unary .prn),
    (0x01#8, .nullary .hlt) ]

/-- The row of `table` whose key is the byte, compared whole (R82). -/
def lookupIn (op : Byte) : List (Byte × Handler) → Option Handler
  | [] => none
  | (key, h) :: rest => if op = key then some h else lookupIn op rest

/-- `Lookup(op)`; `none` is the spec's `absent` (R86). -/
def lookup (op : Byte) : Option Handler := lookupIn op opcodeTable

/-- Fetch, decode and operand read in the one order of R106: the opcode at offset 0, the table, then the operand bytes
the entry declares, lowest address first; the first failure ends it. `read k` reads the byte at offset `k` of the
instruction and `absent op` is the error for a byte with no entry. Nothing beyond the arity is read (R112). -/
def decodeWith {ε : Type} (read : Nat → Except ε Byte) (absent : Byte → ε) : Except ε Instr :=
  match read 0 with
  | .error e => .error e
  | .ok op =>
    match lookup op with
    | none => .error (absent op)
    | some (.nullary i) => .ok i
    | some (.unary build) =>
      match read 1 with
      | .error e => .error e
      | .ok a => .ok (build a)
    | some (.binary build) =>
      match read 1 with
      | .error e => .error e
      | .ok a =>
        match read 2 with
        | .error e => .error e
        | .ok b => .ok (build a b)

/-- Why a byte sequence is not an instruction. -/
inductive DecodeError where
  /-- The first byte has no table entry (R87). -/
  | invalidOpcode (op : Byte)
  /-- The sequence ends before the byte at this offset, which the instruction needs. -/
  | missingByte (offset : Nat)
deriving DecidableEq, Repr

/-- The byte of a sequence at an offset. -/
def byteAt (bytes : List Byte) (k : Nat) : Except DecodeError Byte :=
  match bytes[k]? with
  | some b => .ok b
  | none => .error (.missingByte k)

/-- The bytes of an instruction, opcode first (R80, R91). -/
def encode : Instr → List Byte
  | .ldi a b => [0x82#8, a, b]
  | .mul a b => [0xA2#8, a, b]
  | .prn a => [0x47#8, a]
  | .hlt => [0x01#8]

/-- The first instruction of a byte sequence and the bytes that follow it (R89), or why there is none. -/
def decode (bytes : List Byte) : Except DecodeError (Instr × List Byte) :=
  match decodeWith (byteAt bytes) DecodeError.invalidOpcode with
  | .error e => .error e
  | .ok i => .ok (i, bytes.drop (encode i).length)

/-- The three bytes of an opcode-table word, first byte in bits 7..0; the bits from `nbits` up are 0. -/
def tableBytes (nbits w : Nat) : List Byte :=
  let v := w % 2 ^ nbits
  [byteOf v, byteOf (v / 256), byteOf (v / 65536)]

/-- The instruction the decoder reads from a word numbered as spec/opcode_table.json numbers it. -/
def decodeTableWord (nbits w : Nat) : Option Instr :=
  match decode (tableBytes nbits w) with
  | .ok (i, _) => some i
  | .error _ => none

/-- The register name `R0`..`R7` of an index; above 7 there is none (R22, R91). -/
def regName (i : Byte) : Option String :=
  if i.toNat ≤ 7 then some ("R" ++ toString i.toNat) else none

/-- The spec's assembly syntax (R91); `none` where an index has no register name. Notation only. -/
def Instr.assembly : Instr → Option String
  | .ldi a v => (regName a).map fun ra => "LDI " ++ ra ++ ", " ++ toString v.toNat
  | .mul a b => (regName a).bind fun ra => (regName b).map fun rb => "MUL " ++ ra ++ ", " ++ rb
  | .prn a => (regName a).map fun ra => "PRN " ++ ra
  | .hlt => some "HLT"

end Sys2Proof
end

