-- ==== Sys2Proof/Machine/Fetch.lean ====
section
/-! DEFINITION. Fetch, decode and operand read on the machine (40_engine_cycle.md section 1). -/

namespace Sys2Proof.Machine

/-- The first half of R106: the instruction at `pc` with its operand bytes, read from memory at this moment (R63), or
the fault that ends the cycle: OutOfBoundsAccess at the refused address, InvalidOpcode with the byte (R101 to R103). -/
def State.fetchInstr (s : State) : Except Raise Instr :=
  decodeWith (fun k => s.memRead (s.pc + k)) fun op => ⟨.invalidOpcode, .int op.toNat⟩

/-- The bytes of memory an instruction at `pc` can occupy: those at `pc`, `pc + 1`, `pc + 2` that exist. -/
def State.codeBytes (s : State) : List Byte :=
  ((List.range 3).filter fun k => decide (s.pc + k ≤ 255)).map fun k => Memory.read (s.pc + k) s.mem

end Sys2Proof.Machine
end

