-- ==== Sys2Proof/Machine/Step.lean ====
section
/-! DEFINITION. One cycle of the Execution Engine as one step (R100, R106). -/

namespace Sys2Proof.Machine

/-- One whole fetch-decode-execute cycle (R106), defined only while RUNNING: in HALTED and FAULTED no cycle runs (R108).
A fault of the fetch is taken with the `pc` of the cycle's start (R178). DEDUCED, log entries 4 and 12, safe. -/
def step (s : State) : Host.Outcome State Fault Refusal :=
  match s.state with
  | .halted => .fault .halted
  | .faulted => .fault .faulted
  | .running =>
    match s.fetchInstr with
    | .ok i => exec i s
    | .error r => .next (s.takeFault r s.pc)

/-- `s` with a table word's three bytes stored from `pc` up, as far as memory reaches. It stands for the host's load:
DEDUCED, log entry 11, safe. -/
def State.withFetchWord (s : State) (nbits w : Nat) : State :=
  { s with mem := Memory.writeBytes s.mem s.pc ((tableBytes nbits w).take (256 - s.pc)) }

end Sys2Proof.Machine
end

