-- ==== Sys2Proof/Machine/HostInterface.lean ====
section
/-! DEFINITION. The host's transactions, Table R210, and the order they may come in (R54, R201, R211). The phase of a
session is the host protocol's and no part of the core's state (R20). -/

namespace Sys2Proof.Machine

/-- Where a session stands in the order of R201. -/
inductive Phase where
  /-- After reset, nothing loaded, no cycle allowed yet. -/
  | afterReset
  /-- After the one load, before the run request. -/
  | loaded
  /-- After the run request: cycles run until a terminal state. -/
  | started
deriving DecidableEq, Repr

/-- A core and the phase its host has brought it to. -/
structure Session where
  phase : Phase
  core : State
deriving DecidableEq, Repr

/-- What can happen to a session: the host's reset, load and run (Table R210) and the engine's own cycle (R100). A reset
carries the value of REG_RESET it happens to leave in the registers (R40). -/
inductive Action where
  | reset (regReset : Vector Byte 8)
  | load (bytes : List Byte)
  | run
  | cycle
deriving DecidableEq, Repr

/-- The session after an action; `none` where the action has no move (Table R210, R211, decisions D10 and D20). Reset: any
time. Load: once, after reset, before the run. Run: once, after the load (R201). Cycle: after the run request, while the
engine is RUNNING. Log entry 10, unsafe for a host that breaks its duties. -/
def Session.act (c : Session) : Action → Option Session
  | .reset regReset => some ⟨.afterReset, State.resetWith regReset⟩
  | .load bytes =>
    match c.phase with
    | .afterReset => some ⟨.loaded, c.core.load bytes⟩
    | .loaded => none
    | .started => none
  | .run =>
    match c.phase with
    | .afterReset => none
    | .loaded => some ⟨.started, c.core⟩
    | .started => none
  | .cycle =>
    match c.phase with
    | .afterReset => none
    | .loaded => none
    | .started =>
      match step c.core with
      | .next t => some ⟨.started, t⟩
      | .fault _ => none
      | .refused _ => none

/-- The run is over (R204). -/
def State.runOver (s : State) : Bool := decide (s.state ≠ .running)

/-- The `result` transaction: `state`, `fault` and the complete `out`, once the run is over (Table R210, R180). -/
def Session.result (c : Session) : Option (EngineState × Option FaultRecord × List Byte) :=
  if c.core.runOver then some (c.core.state, c.core.fault, c.core.out) else none

/-- The `inspect` transaction: `x`, `pc`, `mem`, once the run is over (Table R210, decision D13). -/
def Session.inspect (c : Session) : Option (Vector Byte 8 × Nat × Memory) :=
  if c.core.runOver then some (c.core.x, c.core.pc, c.core.mem) else none

/-- What the host gets from a load that led to `c`: `none` for success, or the ProgramTooLarge record (Table R210). -/
def Session.loadReply (c : Session) : Option FaultRecord := c.core.fault

/-- The `output` transaction of an action from `c` to `d`: the values emitted by it, in order (Table R210). -/
def Session.output (c d : Session) : List Byte := d.core.out.drop c.core.out.length

/-- Up to `n` cycles, ending at the first terminal state (R100, R201 step 4). -/
def State.runFor : Nat → State → State
  | 0, s => s
  | n + 1, s =>
    match step s with
    | .next t => State.runFor n t
    | .fault _ => s
    | .refused _ => s

/-- The text the sink shows (R152, decision D9): each value in decimal on a line of its own. A rendering by the host:
no claim rests on it. -/
def renderOut : List Byte → String
  | [] => ""
  | v :: rest => toString v.toNat ++ "\n" ++ renderOut rest

end Sys2Proof.Machine
end

