-- ==== Sys2Proof/Safety.lean ====
section
/-! DEFINITION. What holds of every state a core can be in: the ranges and correspondences the rules promise. -/

namespace Sys2Proof.Machine

/-- The records a fault can leave on this machine (R171 to R175): an illegal byte fetched in range; the address 256
refused at 254, 255 or 256; an oversized load; a register index 8..255 of an instruction with an operand in memory.
UnsupportedOperation cannot occur (R133). -/
def FaultRecord.possible (r : FaultRecord) : Bool :=
  match r.kind, r.value with
  | .invalidOpcode, .int v =>
    decide (0 ≤ v) && decide (v ≤ 255) && (lookup (byteOf v.toNat)).isNone && decide (r.pc ≤ 255)
  | .outOfBoundsAccess, .int v => decide (v = 256) && decide (254 ≤ r.pc) && decide (r.pc ≤ 256)
  | .programTooLarge, .int v => decide (257 ≤ v) && decide (r.pc = 0)
  | .invalidRegister, .int v => decide (8 ≤ v) && decide (v ≤ 255) && decide (r.pc ≤ 254)
  | .unsupportedOperation, _ => false
  | _, .tag _ => false

/-- The invariant of the core. -/
structure State.Inv (s : State) : Prop where
  /-- Memory is in canonical form: 256 cells, each a byte (R36). -/
  mem_wf : Memory.wf s.mem = true
  /-- `pc` is in 0..256 (R27). -/
  pc_range : s.pc ≤ 256
  /-- There is a fault record exactly when FAULTED (R32). -/
  fault_iff : s.fault ≠ none ↔ s.state = .faulted
  /-- The record is one a fault can leave, and `pc` still points where it says (R32, R178). -/
  record : ∀ r, s.fault = some r → r.possible = true ∧ r.pc = s.pc
  /-- HALTED is reached by HLT only, and `pc` keeps the address of the HLT byte (R31, R160). -/
  halted_at : s.state = .halted → s.pc ≤ 255 ∧ Memory.read s.pc s.mem = 0x01#8

/-- The invariant of a session: the core's own, and the core a host can have before the run request is the reset core,
or that core after its one load (R201, R202). -/
structure Session.Inv (c : Session) : Prop where
  core : c.core.Inv
  after_reset : c.phase = .afterReset → ∃ regReset, c.core = State.resetWith regReset
  loaded : c.phase = .loaded → ∃ regReset bytes, c.core = State.launch regReset bytes

end Sys2Proof.Machine
end

