-- ==== Sys2Proof/WellFormed.lean ====
section
/-! DEFINITION. Which instructions name registers the machine has. It is what the assembly syntax can write (R91: "an
index above 7 has no register name") and what a program must provide (R203 (e)). The decoder accepts and `exec` runs
the others too: their register access raises InvalidRegister (R84, R88, R175). DESIGN CHOICE,
log entry 3, safe. -/

namespace Sys2Proof

/-- The byte is the index of one of the 8 registers (R21, R22). -/
def isRegIndex (i : Byte) : Bool := decide (i.toNat ≤ 7)

/-- Every register operand of the instruction names a register. An immediate has no illegal value (R88). -/
def Instr.wellFormed : Instr → Bool
  | .ldi a _ => isRegIndex a
  | .mul a b => isRegIndex a && isRegIndex b
  | .prn a => isRegIndex a
  | .hlt => true

end Sys2Proof
end

