-- ==== Sys2Proof/Certificates/Slice0/Obligations.lean ====
section
/-! DEFINITION. The statements for the provers. Each docstring names the rules of spec/ it formalises. -/

open Sys2Proof Sys2Proof.Machine

/-! ### The decoder and the opcode table -/

/-- Four words written out from Table R86 and Table R80 decode to their instructions, as table words and as bytes. -/
def Obligations.TableWordsDecode : Prop :=
  decodeTableWord 24 0x080082 = some (.ldi 0 8) ∧
  decodeTableWord 24 0x0302A2 = some (.mul 2 3) ∧
  decodeTableWord 16 0x0747 = some (.prn 7) ∧
  decodeTableWord 8 0x01 = some .hlt ∧
  decode [0x82, 0x00, 0x08, 0x47, 0x00, 0x01] = .ok (.ldi 0 8, [0x47, 0x00, 0x01])

/-- Decoding and encoding agree in both directions (R80, R83, R84, R86): a byte sequence decodes to `i` and a rest
exactly when it is the bytes of `i` followed by that rest. Every operand byte is at every one of its 256 values. -/
def Obligations.DecodeInvertsEncode : Prop :=
  ∀ (bytes : List Byte) (i : Instr) (rest : List Byte), decode bytes = .ok (i, rest) ↔ bytes = encode i ++ rest

/-- Table R86: the four keys with their arities, and no entry for any of the other 252 bytes. -/
def Obligations.OpcodeTableAnswers : Prop :=
  ∀ op : Byte, (lookup op).map Handler.arity =
    if op = 0x82 then some 2 else if op = 0xA2 then some 2 else if op = 0x47 then some 1
    else if op = 0x01 then some 0 else none

/-! ### The named operations -/

/-- R23: reading register `i`, for any integer `i`. -/
def Obligations.RegisterReadRule : Prop :=
  ∀ s : State,
    (∀ (n : Nat) (h : n < 8), s.readReg n = .ok s.x[n]) ∧
    (∀ i : Int, i < 0 ∨ 7 < i → s.readReg i = .error ⟨.invalidRegister, .int i⟩)

/-- R24: writing register `i`, for any integer `i` and any non-negative `v`: the register takes `v mod 256`, every other
register and every other item of state is unchanged; outside 0..7 nothing is written. -/
def Obligations.RegisterWriteRule : Prop :=
  ∀ (s : State) (v : Nat),
    (∀ (n : Nat) (h : n < 8), ∃ t, s.writeReg n v = .ok t ∧ t.x[n].toNat = v % 256 ∧
      (∀ (m : Nat) (hm : m < 8), m ≠ n → t.x[m] = s.x[m]) ∧
      t.mem = s.mem ∧ t.pc = s.pc ∧ t.state = s.state ∧ t.fault = s.fault ∧ t.out = s.out) ∧
    (∀ i : Int, i < 0 ∨ 7 < i → s.writeReg i v = .error ⟨.invalidRegister, .int i⟩)

/-- R50: a memory read in 0..255 answers the cell's byte, and one at any other integer raises OutOfBoundsAccess with
that address: no wrap, no mask, no clamp. -/
def Obligations.MemoryReadRule : Prop :=
  ∀ s : State,
    (∀ n : Nat, n ≤ 255 → s.memRead n = .ok (Memory.read n s.mem)) ∧
    (∀ a : Int, a < 0 ∨ 255 < a → s.memRead a = .error ⟨.outOfBoundsAccess, .int a⟩)

/-- R51: a memory write in 0..255 changes that cell and no other cell and no other item of state, and keeps the
canonical form; one at any other integer raises OutOfBoundsAccess and writes nothing. -/
def Obligations.MemoryWriteRule : Prop :=
  ∀ (s : State) (v : Byte), Memory.wf s.mem = true →
    (∀ n : Nat, n ≤ 255 → ∃ t, s.memWrite n v = .ok t ∧ Memory.wf t.mem = true ∧
      (∀ b : Nat, Memory.read b t.mem = if b = n then v else Memory.read b s.mem) ∧
      t.x = s.x ∧ t.pc = s.pc ∧ t.state = s.state ∧ t.fault = s.fault ∧ t.out = s.out) ∧
    (∀ a : Int, a < 0 ∨ 255 < a → s.memWrite a v = .error ⟨.outOfBoundsAccess, .int a⟩)

/-- R130 (with R131, R132, R133): the ALU's byte for ADD and for MUL, as integers modulo 256, and its failure for
every other tag. -/
def Obligations.AluResults : Prop :=
  ∀ a b : Byte,
    (∃ r, alu .add a b = .ok r ∧ r.toNat = (a.toNat + b.toNat) % 256) ∧
    (∃ r, alu .mul a b = .ok r ∧ r.toNat = (a.toNat * b.toNat) % 256) ∧
    (∀ k, alu (.other k) a b = .error ⟨.unsupportedOperation, .tag (.other k)⟩)

/-- R178: taking a fault, of any of the five kinds, writes `state` and the record and nothing else, and no cycle follows. -/
def Obligations.FaultEntryRule : Prop :=
  ∀ (s : State) (k : FaultKind) (v : FaultValue) (pc0 : Nat), ∃ t, s.takeFault ⟨k, v⟩ pc0 = t ∧
    t.state = .faulted ∧ t.fault = some ⟨k, v, pc0⟩ ∧
    t.x = s.x ∧ t.mem = s.mem ∧ t.out = s.out ∧ t.pc = s.pc ∧ ∀ u, step t ≠ .next u

/-- R52: a load of at most 256 bytes puts byte `i` at address `i`, changes no other cell, and no register, `pc`,
`state`, `fault` or `out`; a longer one raises ProgramTooLarge with the record (ProgramTooLarge, L, 0). -/
def Obligations.LoadRule : Prop :=
  ∀ (s : State) (bytes : List Byte), Memory.wf s.mem = true →
    (∀ _ : bytes.length ≤ 256,
      (∀ (a : Nat) (h : a < bytes.length), Memory.read a (s.load bytes).mem = bytes[a]) ∧
      (∀ a : Nat, bytes.length ≤ a → Memory.read a (s.load bytes).mem = Memory.read a s.mem) ∧
      (s.load bytes).state = s.state ∧ (s.load bytes).fault = s.fault) ∧
    (256 < bytes.length →
      (s.load bytes).state = .faulted ∧
      (s.load bytes).fault = some ⟨.programTooLarge, .int bytes.length, 0⟩) ∧
    (s.load bytes).x = s.x ∧ (s.load bytes).pc = s.pc ∧ (s.load bytes).out = s.out

/-! ### Reset -/

/-- R42 and R44, with R40, R41, R43, R45: after reset the engine is RUNNING and every cell is 0; `pc` is 0, there is no
fault record and no output, and the registers hold the open parameter, whatever it is. `State.reset` is such a reset. -/
def Obligations.ResetValues : Prop :=
  (∀ regReset : Vector Byte 8,
    (State.resetWith regReset).state = .running ∧
    (∀ a : Nat, Memory.read a (State.resetWith regReset).mem = 0) ∧
    (State.resetWith regReset).pc = 0 ∧ (State.resetWith regReset).fault = none ∧
    (State.resetWith regReset).out = [] ∧ (State.resetWith regReset).x = regReset) ∧
  ∃ regReset, State.reset = State.resetWith regReset

/-- The invariant holds after reset, for every value of REG_RESET, and so at `State.reset`; and a session that has just
been reset meets its own. -/
def Obligations.ResetMeetsInvariant : Prop :=
  (∀ regReset : Vector Byte 8,
    (State.resetWith regReset).Inv ∧ (Session.mk .afterReset (State.resetWith regReset)).Inv) ∧
  State.reset.Inv

/-- The invariant holds after the one load, fitting or not, for every program and every value of REG_RESET (R202, R53). -/
def Obligations.LaunchMeetsInvariant : Prop :=
  ∀ (regReset : Vector Byte 8) (bytes : List Byte), (State.launch regReset bytes).Inv

/-! ### What each instruction does -/

/-- LDI with a register that exists completes (R120, R24, R28): the register takes the immediate, `pc` moves by 3, and
every other register, every byte of memory, `state`, `fault` and `out` are unchanged. -/
def Obligations.LdiResult : Prop :=
  ∀ (a b : Byte) (s : State) (h : a.toNat < 8), ∃ t, exec (.ldi a b) s = .next t ∧
    t.x[a.toNat] = b ∧ (∀ (m : Nat) (hm : m < 8), m ≠ a.toNat → t.x[m] = s.x[m]) ∧
    t.pc = s.pc + 3 ∧ (∀ addr : Nat, Memory.read addr t.mem = Memory.read addr s.mem) ∧ t.mem = s.mem ∧
    t.state = s.state ∧ t.fault = s.fault ∧ t.out = s.out

/-- MUL with registers that exist completes (R135, R132, R28): `x[a]` takes the product of the old `x[a]` and `x[b]`
modulo 256, also where `a = b`; `pc` moves by 3, and every other register, every byte of memory, `state`, `fault` and
`out` are unchanged. -/
def Obligations.MulResult : Prop :=
  ∀ (a b : Byte) (s : State) (ha : a.toNat < 8) (hb : b.toNat < 8), ∃ t, exec (.mul a b) s = .next t ∧
    t.x[a.toNat].toNat = (s.x[a.toNat].toNat * s.x[b.toNat].toNat) % 256 ∧
    (∀ (m : Nat) (hm : m < 8), m ≠ a.toNat → t.x[m] = s.x[m]) ∧
    t.pc = s.pc + 3 ∧ (∀ addr : Nat, Memory.read addr t.mem = Memory.read addr s.mem) ∧ t.mem = s.mem ∧
    t.state = s.state ∧ t.fault = s.fault ∧ t.out = s.out

/-- PRN with a register that exists completes (R150, R151, R28): its value is appended to `out`, `pc` moves by 2, and
every register, every byte of memory, `state` and `fault` are unchanged. -/
def Obligations.PrnResult : Prop :=
  ∀ (a : Byte) (s : State) (h : a.toNat < 8), ∃ t, exec (.prn a) s = .next t ∧
    t.out = s.out ++ [s.x[a.toNat]] ∧
    t.pc = s.pc + 2 ∧ t.x = s.x ∧ (∀ addr : Nat, Memory.read addr t.mem = Memory.read addr s.mem) ∧ t.mem = s.mem ∧
    t.state = s.state ∧ t.fault = s.fault

/-- HLT completes in every state (R160): `state` becomes HALTED, and `pc`, every register, every byte of memory, `fault`
and `out` are unchanged. -/
def Obligations.HltResult : Prop :=
  ∀ s : State, ∃ t, exec .hlt s = .next t ∧ t.state = .halted ∧
    t.pc = s.pc ∧ t.x = s.x ∧ (∀ addr : Nat, Memory.read addr t.mem = Memory.read addr s.mem) ∧ t.mem = s.mem ∧
    t.fault = s.fault ∧ t.out = s.out

/-- R175: where LDI, MUL and PRN trap. A bad first index raises InvalidRegister with it, whatever the second operand
is; in MUL a bad second index raises it when the first is good. The fault is taken with the instruction's `pc`. -/
def Obligations.BadRegisterIndexFaults : Prop :=
  ∀ (a b : Byte) (s : State),
    (7 < a.toNat →
      exec (.ldi a b) s = .next (s.takeFault ⟨.invalidRegister, .int a.toNat⟩ s.pc) ∧
      exec (.mul a b) s = .next (s.takeFault ⟨.invalidRegister, .int a.toNat⟩ s.pc) ∧
      exec (.prn a) s = .next (s.takeFault ⟨.invalidRegister, .int a.toNat⟩ s.pc)) ∧
    (a.toNat ≤ 7 → 7 < b.toNat →
      exec (.mul a b) s = .next (s.takeFault ⟨.invalidRegister, .int b.toNat⟩ s.pc))

/-- R88, R175, R203 (e): an instruction faults exactly when it names a register that does not exist. A well-formed one
leaves the fault record alone; any other takes InvalidRegister with an index in 8..255 and changes nothing else. -/
def Obligations.FaultExactlyWhenIllFormed : Prop :=
  ∀ (i : Instr) (s t : State), exec i s = .next t →
    (i.wellFormed = true → t.fault = s.fault ∧ (t.state = s.state ∨ i = .hlt)) ∧
    (i.wellFormed = false → ∃ v : Int, 8 ≤ v ∧ v ≤ 255 ∧ t = s.takeFault ⟨.invalidRegister, .int v⟩ s.pc)

/-! ### The cycle -/

/-- A step runs the decoded instruction: when the bytes of memory from `pc` up decode to `i`, the step is `exec i` in
that state and adds nothing to it (R100, R104, R106). -/
def Obligations.StepRunsDecodedInstruction : Prop :=
  ∀ (s : State) (i : Instr) (rest : List Byte), s.state = .running →
    decode s.codeBytes = .ok (i, rest) → step s = exec i s

/-- A step whose bytes do not decode takes the fault that says why (R101 to R103): InvalidOpcode with the byte, or
OutOfBoundsAccess with the address of the byte that does not exist, each with the `pc` of the cycle's start. -/
def Obligations.StepTakesFetchFault : Prop :=
  ∀ s : State, s.state = .running →
    (∀ op : Byte, decode s.codeBytes = .error (.invalidOpcode op) →
      step s = .next (s.takeFault ⟨.invalidOpcode, .int op.toNat⟩ s.pc)) ∧
    (∀ k : Nat, decode s.codeBytes = .error (.missingByte k) →
      step s = .next (s.takeFault ⟨.outOfBoundsAccess, .int (s.pc + k)⟩ s.pc))

/-- R101: the opcode fetch. At `pc = 256` the cycle ends FAULTED with (OutOfBoundsAccess, 256, 256) and changes nothing
else; in 0..255 the fetch answers the byte at `pc`. -/
def Obligations.FetchRule : Prop :=
  ∀ s : State,
    (s.pc = 256 → s.memRead s.pc = .error ⟨.outOfBoundsAccess, .int 256⟩ ∧
      (s.state = .running → step s =
        .next { s with state := .faulted, fault := some ⟨.outOfBoundsAccess, .int 256, 256⟩ })) ∧
    (s.pc ≤ 255 → s.memRead s.pc = .ok (Memory.read s.pc s.mem))

/-- R102: a byte with no entry ends the cycle FAULTED with (InvalidOpcode, op, pc), whatever follows it in memory; an
entry has an arity in 0..2. -/
def Obligations.IllegalOpcodeRule : Prop :=
  (∀ s : State, s.state = .running → s.pc ≤ 255 → lookup (Memory.read s.pc s.mem) = none →
    step s = .next { s with
      state := .faulted
      fault := some ⟨.invalidOpcode, .int (Memory.read s.pc s.mem).toNat, s.pc⟩ }) ∧
  (∀ op h, lookup op = some h → h.arity ≤ 2)

/-- R103: an instruction of which an operand lies past address 255 ends the cycle FAULTED with
(OutOfBoundsAccess, 256, pc), whatever the operand bytes that exist, and changes nothing else. -/
def Obligations.OperandPastEndFaults : Prop :=
  ∀ (s : State) (h : Handler), s.state = .running → s.pc ≤ 255 → lookup (Memory.read s.pc s.mem) = some h →
    255 < s.pc + h.arity →
    step s = .next { s with state := .faulted, fault := some ⟨.outOfBoundsAccess, .int 256, s.pc⟩ }

/-- R120, the whole cycle of an LDI at `pc`: its encoding, its checks in order, its effect, and nothing else. -/
def Obligations.LdiCycle : Prop :=
  ∀ s : State, s.state = .running →
    (s.pc = 256 → step s = .next (s.takeFault ⟨.outOfBoundsAccess, .int 256⟩ 256)) ∧
    (s.pc ≤ 255 → Memory.read s.pc s.mem = 0x82 → 254 ≤ s.pc →
      step s = .next (s.takeFault ⟨.outOfBoundsAccess, .int 256⟩ s.pc)) ∧
    (∀ a b : Byte, s.pc ≤ 253 → Memory.read s.pc s.mem = 0x82 →
      Memory.read (s.pc + 1) s.mem = a → Memory.read (s.pc + 2) s.mem = b →
      (7 < a.toNat → step s = .next (s.takeFault ⟨.invalidRegister, .int a.toNat⟩ s.pc)) ∧
      (∀ ha : a.toNat < 8, step s = .next { s with x := s.x.set a.toNat b, pc := s.pc + 3 }))

/-- R135, the whole cycle of a MUL at `pc`: its encoding, its checks in order, its effect, and nothing else. -/
def Obligations.MulCycle : Prop :=
  ∀ s : State, s.state = .running →
    (s.pc = 256 → step s = .next (s.takeFault ⟨.outOfBoundsAccess, .int 256⟩ 256)) ∧
    (s.pc ≤ 255 → Memory.read s.pc s.mem = 0xA2 → 254 ≤ s.pc →
      step s = .next (s.takeFault ⟨.outOfBoundsAccess, .int 256⟩ s.pc)) ∧
    (∀ a b : Byte, s.pc ≤ 253 → Memory.read s.pc s.mem = 0xA2 →
      Memory.read (s.pc + 1) s.mem = a → Memory.read (s.pc + 2) s.mem = b →
      (7 < a.toNat → step s = .next (s.takeFault ⟨.invalidRegister, .int a.toNat⟩ s.pc)) ∧
      (a.toNat ≤ 7 → 7 < b.toNat → step s = .next (s.takeFault ⟨.invalidRegister, .int b.toNat⟩ s.pc)) ∧
      (∀ (ha : a.toNat < 8) (hb : b.toNat < 8), ∃ r : Byte,
        r.toNat = (s.x[a.toNat].toNat * s.x[b.toNat].toNat) % 256 ∧
        step s = .next { s with x := s.x.set a.toNat r, pc := s.pc + 3 }))

/-- R150, the whole cycle of a PRN at `pc`: its encoding, its checks in order, its effect, and nothing else. -/
def Obligations.PrnCycle : Prop :=
  ∀ s : State, s.state = .running →
    (s.pc = 256 → step s = .next (s.takeFault ⟨.outOfBoundsAccess, .int 256⟩ 256)) ∧
    (s.pc = 255 → Memory.read s.pc s.mem = 0x47 →
      step s = .next (s.takeFault ⟨.outOfBoundsAccess, .int 256⟩ s.pc)) ∧
    (∀ a : Byte, s.pc ≤ 254 → Memory.read s.pc s.mem = 0x47 → Memory.read (s.pc + 1) s.mem = a →
      (7 < a.toNat → step s = .next (s.takeFault ⟨.invalidRegister, .int a.toNat⟩ s.pc)) ∧
      (∀ ha : a.toNat < 8, step s = .next { s with out := s.out ++ [s.x[a.toNat]], pc := s.pc + 2 }))

/-- R160, the whole cycle of a HLT at `pc`, at any address 0..255 and whatever follows it. -/
def Obligations.HltCycle : Prop :=
  ∀ s : State, s.state = .running →
    (s.pc = 256 → step s = .next (s.takeFault ⟨.outOfBoundsAccess, .int 256⟩ 256)) ∧
    (s.pc ≤ 255 → Memory.read s.pc s.mem = 0x01 → step s = .next { s with state := .halted })

/-- R121: an `LDI r, v` followed by a `PRN r` emits exactly `v`, in two cycles. -/
def Obligations.LdiThenPrnEmitsValue : Prop :=
  ∀ (s : State) (r v : Byte) (hr : r.toNat < 8), s.state = .running → s.pc ≤ 251 →
    Memory.read s.pc s.mem = 0x82 → Memory.read (s.pc + 1) s.mem = r → Memory.read (s.pc + 2) s.mem = v →
    Memory.read (s.pc + 3) s.mem = 0x47 → Memory.read (s.pc + 4) s.mem = r →
    ∃ t u, step s = .next t ∧ step t = .next u ∧
      u.out = s.out ++ [v] ∧ u.x[r.toNat] = v ∧ u.pc = s.pc + 5 ∧
      (∀ (m : Nat) (hm : m < 8), m ≠ r.toNat → u.x[m] = s.x[m]) ∧
      u.mem = s.mem ∧ u.state = .running ∧ u.fault = s.fault

/-! ### Whole-machine rules -/

/-- While RUNNING every cycle executes one instruction or takes one fault (R100): the step answers a next state, always. -/
def Obligations.RunningAlwaysSteps : Prop :=
  ∀ s : State, s.state = .running → ∃ t, step s = .next t

/-- R108: in HALTED and in FAULTED no cycle runs, and no number of attempts changes any part of the state. -/
def Obligations.TerminalStatesRunNoCycle : Prop :=
  ∀ s : State, s.state = .halted ∨ s.state = .faulted →
    (∀ t, step s ≠ .next t) ∧ ∀ n, State.runFor n s = s

/-- R31: the transitions of the engine state. From RUNNING a cycle leads to HALTED by HLT only, to FAULTED with the
record of a fault, or back to RUNNING by LDI, MUL or PRN. -/
def Obligations.EngineStateTransitions : Prop :=
  ∀ s t : State, step s = .next t →
    s.state = .running ∧
    (t.state = .halted ↔ s.fetchInstr = .ok .hlt) ∧
    (t.state = .faulted → ∃ r, t.fault = some r ∧ r.pc = s.pc) ∧
    (t.state = .running → ∃ i, s.fetchInstr = .ok i ∧ i ≠ .hlt ∧ i.wellFormed = true)

/-- R111: a cycle that faults changes nothing but `state` and `fault`. -/
def Obligations.FaultingCycleIsPrecise : Prop :=
  ∀ s t : State, step s = .next t → t.state = .faulted →
    t.x = s.x ∧ t.mem = s.mem ∧ t.out = s.out ∧ t.pc = s.pc

/-- R65: no cycle writes memory. -/
def Obligations.NoCycleWritesMemory : Prop :=
  ∀ s t : State, step s = .next t → t.mem = s.mem

/-- R38, R151: a cycle changes `out` only if it is a PRN of a register that exists, and then by that one value. -/
def Obligations.OutputOnlyByPrn : Prop :=
  ∀ s t : State, step s = .next t →
    t.out = s.out ∨
    ∃ (a : Byte) (h : a.toNat < 8), s.fetchInstr = .ok (.prn a) ∧ t.out = s.out ++ [s.x[a.toNat]]

/-- R161: a cycle that leaves the engine RUNNING moves `pc` by 1 + arity of the entry of its opcode, which is 2 or 3;
one that ends the run leaves it alone. -/
def Obligations.PcMovesByTableOnly : Prop :=
  ∀ s t : State, step s = .next t →
    (t.state ≠ .running → t.pc = s.pc) ∧
    (t.state = .running → ∃ h, lookup (Memory.read s.pc s.mem) = some h ∧ 1 ≤ h.arity ∧ h.arity ≤ 2 ∧
      t.pc = s.pc + 1 + h.arity ∧ t.pc ≤ 256)

/-- R110: every run ends. From any state with `pc` in 0..256 at most `(256 - pc) / 2 + 1` cycles reach HALTED or FAULTED,
which from `pc = 0` is 129. -/
def Obligations.EveryRunEnds : Prop :=
  ∀ s : State, s.pc ≤ 256 → (State.runFor ((256 - s.pc) / 2 + 1) s).state ≠ .running

/-- R112: bytes beyond an instruction's arity play no part. A memory that agrees on the bytes of the instruction at `pc`
gives the same instruction, and the same cycle but for that memory. -/
def Obligations.OnlyArityBytesMatter : Prop :=
  ∀ (s t : State) (m : Memory) (i : Instr), s.state = .running → s.fetchInstr = .ok i →
    (∀ k, k < (encode i).length → Memory.read (s.pc + k) m = Memory.read (s.pc + k) s.mem) →
    step s = .next t → step { s with mem := m } = .next { t with mem := m }

/-- R162, R25: no register steers control. Two states that differ only in their registers have cycles that agree on
`pc`, `state`, `fault`, memory and the number of values emitted. -/
def Obligations.RegistersNeverSteer : Prop :=
  ∀ (s t u : State) (regs : Vector Byte 8), step s = .next t → step { s with x := regs } = .next u →
    u.pc = t.pc ∧ u.state = t.state ∧ u.fault = t.fault ∧ u.mem = t.mem ∧ u.out.length = t.out.length

/-- The invariant of the core is kept by every step, from every state that meets it (R27, R31, R32, R36, R160, R171 to
R175). -/
def Obligations.StepKeepsInvariant : Prop :=
  ∀ s t : State, s.Inv → step s = .next t → t.Inv

/-! ### The host -/

/-- The invariant of a session is kept by every action a host or the engine can take (R201, R202, R211). -/
def Obligations.ActionKeepsSessionInvariant : Prop :=
  ∀ (c d : Session) (a : Action), c.Inv → c.act a = some d → d.Inv

/-- R209: reset is the only way out of HALTED and FAULTED, and it leaves the state of R200 whatever was there before:
any other action a session has there leaves the core as it is. -/
def Obligations.ResetIsOnlyWayOut : Prop :=
  (∀ (c : Session) (regReset : Vector Byte 8),
    c.act (.reset regReset) = some ⟨.afterReset, State.resetWith regReset⟩) ∧
  (∀ (c d : Session) (a : Action), c.Inv → c.core.state ≠ .running → c.act a = some d →
    (∃ regReset, a = .reset regReset) ∨ d.core = c.core)

/-- R54, R201, Table R210, R211: a load has a move only right after reset, a run request only after the load and before
the run, a cycle only after the run request, while the engine is RUNNING; a reset always has one. -/
def Obligations.HostActionsInOrder : Prop :=
  ∀ c : Session,
    (∀ bytes, (c.act (.load bytes)).isSome = true ↔ c.phase = .afterReset) ∧
    ((c.act .run).isSome = true ↔ c.phase = .loaded) ∧
    ((c.act .cycle).isSome = true ↔ c.phase = .started ∧ c.core.state = .running) ∧
    (∀ regReset, (c.act (.reset regReset)).isSome = true)

/-- R204, Table R210: the host gets `state`, `fault` and `out`, and may look at `x`, `pc` and `mem`, exactly when the
engine is HALTED or FAULTED. -/
def Obligations.ResultExactlyWhenOver : Prop :=
  ∀ c : Session,
    (c.core.state = .halted ∨ c.core.state = .faulted →
      c.result = some (c.core.state, c.core.fault, c.core.out) ∧
      c.inspect = some (c.core.x, c.core.pc, c.core.mem)) ∧
    (c.core.state = .running → c.result = none ∧ c.inspect = none)

/-- R54: memory that is all zero, as after reset, makes the first cycle fault with InvalidOpcode(0) at `pc` 0, for every
value of REG_RESET; and so it does after the load of an empty program, the one way to run such memory (R52, R201). -/
def Obligations.ZeroMemoryFaultsAtOnce : Prop :=
  ∀ regReset : Vector Byte 8,
    State.launch regReset [] = State.resetWith regReset ∧
    step (State.resetWith regReset) = .next { State.resetWith regReset with
      state := .faulted
      fault := some ⟨.invalidOpcode, .int 0, 0⟩ }
end

