-- ==== Sys2Proof/Laws/Decode.lean ====
section
/-! SUPPORT. The opcode table and the decoder: everything each can answer. -/

namespace Sys2Proof

theorem lookup_ldi : lookup 0x82#8 = some (.binary .ldi) := rfl
theorem lookup_mul : lookup 0xA2#8 = some (.binary .mul) := rfl
theorem lookup_prn : lookup 0x47#8 = some (.unary .prn) := rfl
theorem lookup_hlt : lookup 0x01#8 = some (.nullary .hlt) := rfl

/-- A byte other than the four keys has no entry. -/
theorem lookup_absent {op : Byte} (h1 : op ≠ 0x82#8) (h2 : op ≠ 0xA2#8) (h3 : op ≠ 0x47#8) (h4 : op ≠ 0x01#8) :
    lookup op = none := by
  simp [lookup, opcodeTable, lookupIn, h1, h2, h3, h4]

/-- The five answers of the table. -/
theorem lookup_cases (op : Byte) :
    op = 0x82#8 ∨ op = 0xA2#8 ∨ op = 0x47#8 ∨ op = 0x01#8 ∨
      (lookup op = none ∧ op ≠ 0x82#8 ∧ op ≠ 0xA2#8 ∧ op ≠ 0x47#8 ∧ op ≠ 0x01#8) := by
  by_cases h1 : op = 0x82#8
  · exact .inl h1
  by_cases h2 : op = 0xA2#8
  · exact .inr (.inl h2)
  by_cases h3 : op = 0x47#8
  · exact .inr (.inr (.inl h3))
  by_cases h4 : op = 0x01#8
  · exact .inr (.inr (.inr (.inl h4)))
  exact .inr (.inr (.inr (.inr ⟨lookup_absent h1 h2 h3 h4, h1, h2, h3, h4⟩)))

theorem encode_length_pos (i : Instr) : 0 < (encode i).length := by cases i <;> simp [encode]

theorem encode_length_le (i : Instr) : (encode i).length ≤ 3 := by cases i <;> simp [encode]

section DecodeWith
variable {ε : Type} {read : Nat → Except ε Byte} {absent : Byte → ε}

/-- If the bytes read at the offsets of `encode i` are the bytes of `encode i`, the decoder answers `i`. -/
theorem decodeWith_of_encode {i : Instr} (h : ∀ k (hk : k < (encode i).length), read k = .ok (encode i)[k]) :
    decodeWith read absent = .ok i := by
  have h0 := h 0 (encode_length_pos i)
  cases i with
  | ldi a b =>
    have h1 := h 1 (by simp [encode]); have h2 := h 2 (by simp [encode])
    simp_all [encode, decodeWith, lookup_ldi]
  | mul a b =>
    have h1 := h 1 (by simp [encode]); have h2 := h 2 (by simp [encode])
    simp_all [encode, decodeWith, lookup_mul]
  | prn a =>
    have h1 := h 1 (by simp [encode])
    simp_all [encode, decodeWith, lookup_prn]
  | hlt => simp_all [encode, decodeWith, lookup_hlt]

/-- If the decoder answers `i`, it has read the bytes of `encode i`, each at its offset. -/
theorem encode_of_decodeWith {i : Instr} (h : decodeWith read absent = .ok i) :
    ∀ k (hk : k < (encode i).length), read k = .ok (encode i)[k] := by
  unfold decodeWith at h
  split at h
  · cases h
  rename_i op h0
  obtain rfl | rfl | rfl | rfl | ⟨hn, -⟩ := lookup_cases op
  · simp only [lookup_ldi] at h
    split at h
    · cases h
    rename_i a h1
    split at h
    · cases h
    rename_i b h2
    cases h
    rintro (_ | _ | _ | k) hk
    · exact h0
    · exact h1
    · exact h2
    · exact absurd hk (by simp [encode])
  · simp only [lookup_mul] at h
    split at h
    · cases h
    rename_i a h1
    split at h
    · cases h
    rename_i b h2
    cases h
    rintro (_ | _ | _ | k) hk
    · exact h0
    · exact h1
    · exact h2
    · exact absurd hk (by simp [encode])
  · simp only [lookup_prn] at h
    split at h
    · cases h
    rename_i a h1
    cases h
    rintro (_ | _ | k) hk
    · exact h0
    · exact h1
    · exact absurd hk (by simp [encode])
  · simp only [lookup_hlt] at h
    cases h
    rintro (_ | k) hk
    · exact h0
    · exact absurd hk (by simp [encode])
  · simp [hn] at h

/-- What the decoder's failure says: the opcode could not be read; or it has no entry; or it has one with an operand at
offset 1 that could not be read; or with an operand at offset 2 that could not be read, after the one at 1. -/
theorem decodeWith_error {e : ε} (h : decodeWith read absent = .error e) :
    read 0 = .error e ∨
    (∃ op, read 0 = .ok op ∧ lookup op = none ∧ e = absent op) ∨
    (∃ op hd, read 0 = .ok op ∧ lookup op = some hd ∧ 1 ≤ hd.arity ∧ read 1 = .error e) ∨
    (∃ op hd a, read 0 = .ok op ∧ lookup op = some hd ∧ hd.arity = 2 ∧ read 1 = .ok a ∧ read 2 = .error e) := by
  unfold decodeWith at h
  split at h
  · rename_i h0; cases h; exact .inl h0
  rename_i op h0
  split at h
  · rename_i hn; cases h; exact .inr (.inl ⟨op, h0, hn, rfl⟩)
  · cases h
  · rename_i mk hl
    split at h
    · rename_i h1; cases h
      exact .inr (.inr (.inl ⟨op, .unary mk, h0, hl, by simp [Handler.arity], h1⟩))
    · cases h
  · rename_i mk hl
    split at h
    · rename_i h1; cases h
      exact .inr (.inr (.inl ⟨op, .binary mk, h0, hl, by simp [Handler.arity], h1⟩))
    · rename_i a h1
      split at h
      · rename_i h2; cases h
        exact .inr (.inr (.inr ⟨op, .binary mk, a, h0, hl, rfl, h1, h2⟩))
      · cases h

/-- A byte with no entry ends the decoder at once: no operand is read. -/
theorem decodeWith_absent {op : Byte} (h0 : read 0 = .ok op) (hn : lookup op = none) :
    decodeWith read absent = .error (absent op) := by
  simp [decodeWith, h0, hn]

/-- An opcode that cannot be read ends the decoder. -/
theorem decodeWith_no_opcode {e : ε} (h0 : read 0 = .error e) : decodeWith read absent = .error e := by
  simp [decodeWith, h0]

/-- A first operand that cannot be read ends the decoder. -/
theorem decodeWith_no_operand_a {op : Byte} {hd : Handler} {e : ε} (h0 : read 0 = .ok op) (hl : lookup op = some hd)
    (har : 1 ≤ hd.arity) (h1 : read 1 = .error e) : decodeWith read absent = .error e := by
  cases hd <;> simp_all [decodeWith, Handler.arity]

/-- A second operand that cannot be read ends the decoder. -/
theorem decodeWith_no_operand_b {op a : Byte} {hd : Handler} {e : ε} (h0 : read 0 = .ok op)
    (hl : lookup op = some hd) (har : hd.arity = 2) (h1 : read 1 = .ok a) (h2 : read 2 = .error e) :
    decodeWith read absent = .error e := by
  cases hd <;> simp_all [decodeWith, Handler.arity]

end DecodeWith

theorem byteAt_of_lt {bytes : List Byte} {k : Nat} (h : k < bytes.length) : byteAt bytes k = .ok bytes[k] := by
  simp [byteAt, h]

theorem byteAt_of_ge {bytes : List Byte} {k : Nat} (h : bytes.length ≤ k) :
    byteAt bytes k = .error (.missingByte k) := by
  simp [byteAt, h]

end Sys2Proof
end

