-- ==== Sys2Proof/Laws/Memory.lean ====
section
/-! SUPPORT. Memory: a read after a write, and the canonical form kept by every operation. -/

namespace Sys2Proof.Machine

@[simp] theorem Memory.read_nil (a : Nat) : Memory.read a [] = 0#8 := rfl

theorem Memory.wfFrom_mono {lo lo' : Nat} (h : lo' ≤ lo) {m : Memory} (hm : Memory.wfFrom lo m = true) :
    Memory.wfFrom lo' m = true := by
  cases m with
  | nil => rfl
  | cons c rest =>
    simp only [Memory.wfFrom, Bool.and_eq_true, decide_eq_true_eq] at hm ⊢
    exact ⟨⟨⟨by omega, hm.1.1.2⟩, hm.1.2⟩, hm.2⟩

theorem Memory.read_below {lo a : Nat} (h : a < lo) {m : Memory} (hm : Memory.wfFrom lo m = true) :
    Memory.read a m = 0#8 := by
  induction m generalizing lo with
  | nil => rfl
  | cons c rest ih =>
    simp only [Memory.wfFrom, Bool.and_eq_true, decide_eq_true_eq] at hm
    obtain ⟨⟨⟨h1, _⟩, _⟩, h2⟩ := hm
    rw [Memory.read, if_neg (by omega)]
    exact ih (by omega) h2

theorem Memory.cons_wfFrom {lo a : Nat} (hlo : lo ≤ a) (ha : a ≤ 255) (v : Byte) {m : Memory}
    (hm : Memory.wfFrom (a + 1) m = true) : Memory.wfFrom lo (Memory.cons a v m) = true := by
  unfold Memory.cons
  split
  · exact Memory.wfFrom_mono (by omega) hm
  · simp [Memory.wfFrom, *]

theorem Memory.read_cons {a : Nat} (v : Byte) {m : Memory} (hm : Memory.wfFrom (a + 1) m = true) (b : Nat) :
    Memory.read b (Memory.cons a v m) = if b = a then v else Memory.read b m := by
  unfold Memory.cons
  split
  · split
    · subst v b; exact Memory.read_below (by omega) hm
    · rfl
  · rfl

theorem Memory.write_wfFrom {lo a : Nat} (hlo : lo ≤ a) (ha : a ≤ 255) (v : Byte) {m : Memory}
    (hm : Memory.wfFrom lo m = true) : Memory.wfFrom lo (Memory.write a v m) = true := by
  induction m generalizing lo with
  | nil => exact Memory.cons_wfFrom hlo ha v rfl
  | cons c rest ih =>
    simp only [Memory.wfFrom, Bool.and_eq_true, decide_eq_true_eq] at hm
    obtain ⟨⟨⟨h1, h2⟩, h3⟩, h4⟩ := hm
    unfold Memory.write
    split
    · exact Memory.cons_wfFrom hlo ha v (by simp [Memory.wfFrom, *])
    · split
      · exact Memory.cons_wfFrom hlo ha v (by rwa [‹a = c.1›])
      · simp only [Memory.wfFrom, Bool.and_eq_true, decide_eq_true_eq]
        exact ⟨⟨⟨h1, h2⟩, h3⟩, ih (by omega) h4⟩

/-- A write keeps the canonical form. -/
theorem Memory.write_wf {a : Nat} (ha : a ≤ 255) (v : Byte) {m : Memory} (hm : m.wf = true) :
    Memory.wf (Memory.write a v m) = true :=
  Memory.write_wfFrom (Nat.zero_le a) ha v hm

theorem Memory.read_write_from {lo a : Nat} (v : Byte) {m : Memory} (hm : Memory.wfFrom lo m = true) (b : Nat) :
    Memory.read b (Memory.write a v m) = if b = a then v else Memory.read b m := by
  induction m generalizing lo with
  | nil => exact Memory.read_cons v rfl b
  | cons c rest ih =>
    simp only [Memory.wfFrom, Bool.and_eq_true, decide_eq_true_eq] at hm
    obtain ⟨⟨⟨h1, h2⟩, h3⟩, h4⟩ := hm
    unfold Memory.write
    split
    · exact Memory.read_cons v (by simp [Memory.wfFrom, *]) b
    · split
      · subst a
        rw [Memory.read_cons v h4 b, Memory.read]
        split <;> rfl
      · simp only [Memory.read, ih h4]
        split
        · subst b; rw [if_neg (by omega)]
        · rfl

/-- What a read gives after a write: the value written there, and what it gave before everywhere else. -/
theorem Memory.read_write {a : Nat} (v : Byte) {m : Memory} (hm : m.wf = true) (b : Nat) :
    Memory.read b (Memory.write a v m) = if b = a then v else Memory.read b m :=
  Memory.read_write_from v hm b

/-- Writing bytes that fit keeps the canonical form. -/
theorem Memory.writeBytes_wf {bytes : List Byte} {a : Nat} (ha : a + bytes.length ≤ 256) {m : Memory}
    (hm : m.wf = true) : Memory.wf (Memory.writeBytes m a bytes) = true := by
  induction bytes generalizing a m with
  | nil => exact hm
  | cons b rest ih =>
    simp only [List.length_cons] at ha
    exact ih (by omega) (Memory.write_wf (by omega) b hm)

/-- What a read gives after bytes that fit were written from `a` up. -/
theorem Memory.read_writeBytes {bytes : List Byte} {a : Nat} (ha : a + bytes.length ≤ 256) {m : Memory}
    (hm : m.wf = true) (b : Nat) :
    Memory.read b (Memory.writeBytes m a bytes) =
      if h : a ≤ b ∧ b < a + bytes.length then bytes[b - a] else Memory.read b m := by
  induction bytes generalizing a m with
  | nil => rw [dif_neg (by simp)]; rfl
  | cons c rest ih =>
    simp only [List.length_cons] at ha ⊢
    have hw := Memory.write_wf (by omega : a ≤ 255) c hm
    rw [Memory.writeBytes, ih (by omega) hw, Memory.read_write c hm]
    by_cases h1 : b = a
    · subst b; simp
    · by_cases h2 : a + 1 ≤ b ∧ b < a + 1 + rest.length
      · rw [dif_pos h2, dif_pos (by omega)]
        obtain ⟨k, rfl⟩ : ∃ k, b = a + 1 + k := ⟨b - (a + 1), by omega⟩
        simp [show a + 1 + k - a = k + 1 by omega]
      · rw [dif_neg h2, if_neg h1, dif_neg (by omega)]

theorem Memory.fill_wfFrom (f : Nat → Byte) {a n : Nat} (h : a + n ≤ 256) :
    Memory.wfFrom a (Memory.fill f a n) = true := by
  induction n generalizing a with
  | zero => rfl
  | succ n ih => exact Memory.cons_wfFrom (Nat.le_refl a) (by omega) (f a) (ih (by omega))

/-- A whole memory filled from a function is in canonical form. -/
theorem Memory.fill_wf (f : Nat → Byte) : Memory.wf (Memory.fill f 0 256) = true :=
  Memory.fill_wfFrom f (by omega)

/-- A filled cell reads as the function says. -/
theorem Memory.read_fill (f : Nat → Byte) {a n : Nat} (h : a + n ≤ 256) {b : Nat} (h1 : a ≤ b) (h2 : b < a + n) :
    Memory.read b (Memory.fill f a n) = f b := by
  induction n generalizing a with
  | zero => omega
  | succ n ih =>
    rw [Memory.fill, Memory.read_cons (f a) (Memory.fill_wfFrom f (by omega))]
    split
    · subst b; rfl
    · exact ih (by omega) (by omega) (by omega)

end Sys2Proof.Machine
end

