-- ==== Sys2Proof/Laws/State.lean ====
section
/-! SUPPORT. One lemma per field per update of the state, so that no proof unfolds a record update. -/

namespace Sys2Proof.Machine

section TakeFault
variable (s : State) (r : Raise) (p : Nat)
@[simp] theorem takeFault_mem : (s.takeFault r p).mem = s.mem := rfl
@[simp] theorem takeFault_x : (s.takeFault r p).x = s.x := rfl
@[simp] theorem takeFault_pc : (s.takeFault r p).pc = s.pc := rfl
@[simp] theorem takeFault_state : (s.takeFault r p).state = .faulted := rfl
@[simp] theorem takeFault_fault : (s.takeFault r p).fault = some ⟨r.kind, r.value, p⟩ := rfl
@[simp] theorem takeFault_out : (s.takeFault r p).out = s.out := rfl
end TakeFault

section Advance
variable (s : State) (n : Nat)
@[simp] theorem advance_mem : (s.advance n).mem = s.mem := rfl
@[simp] theorem advance_x : (s.advance n).x = s.x := rfl
@[simp] theorem advance_pc : (s.advance n).pc = s.pc + n := rfl
@[simp] theorem advance_state : (s.advance n).state = s.state := rfl
@[simp] theorem advance_fault : (s.advance n).fault = s.fault := rfl
@[simp] theorem advance_out : (s.advance n).out = s.out := rfl
end Advance

section Emit
variable (s : State) (v : Byte)
@[simp] theorem emit_mem : (s.emit v).mem = s.mem := rfl
@[simp] theorem emit_x : (s.emit v).x = s.x := rfl
@[simp] theorem emit_pc : (s.emit v).pc = s.pc := rfl
@[simp] theorem emit_state : (s.emit v).state = s.state := rfl
@[simp] theorem emit_fault : (s.emit v).fault = s.fault := rfl
@[simp] theorem emit_out : (s.emit v).out = s.out ++ [v] := rfl
end Emit

section Halt
variable (s : State)
@[simp] theorem halt_mem : s.halt.mem = s.mem := rfl
@[simp] theorem halt_x : s.halt.x = s.x := rfl
@[simp] theorem halt_pc : s.halt.pc = s.pc := rfl
@[simp] theorem halt_state : s.halt.state = .halted := rfl
@[simp] theorem halt_fault : s.halt.fault = s.fault := rfl
@[simp] theorem halt_out : s.halt.out = s.out := rfl
end Halt

section ResetWith
variable (regReset : Vector Byte 8)
@[simp] theorem resetWith_mem : (State.resetWith regReset).mem = [] := rfl
@[simp] theorem resetWith_x : (State.resetWith regReset).x = regReset := rfl
@[simp] theorem resetWith_pc : (State.resetWith regReset).pc = 0 := rfl
@[simp] theorem resetWith_state : (State.resetWith regReset).state = .running := rfl
@[simp] theorem resetWith_fault : (State.resetWith regReset).fault = none := rfl
@[simp] theorem resetWith_out : (State.resetWith regReset).out = [] := rfl
end ResetWith

section WithFetchWord
variable (s : State) (nbits w : Nat)
@[simp] theorem withFetchWord_x : (s.withFetchWord nbits w).x = s.x := rfl
@[simp] theorem withFetchWord_pc : (s.withFetchWord nbits w).pc = s.pc := rfl
@[simp] theorem withFetchWord_state : (s.withFetchWord nbits w).state = s.state := rfl
@[simp] theorem withFetchWord_fault : (s.withFetchWord nbits w).fault = s.fault := rfl
@[simp] theorem withFetchWord_out : (s.withFetchWord nbits w).out = s.out := rfl
end WithFetchWord

end Sys2Proof.Machine
end

