-- ==== Sys2Proof/Laws/Ops.lean ====
section
/-! SUPPORT. Each shared operation of the machine: everything it can do, for callers to cite. -/

namespace Sys2Proof.Machine

/-- Reducing a byte changes nothing. -/
@[simp] theorem byteOf_toNat (v : Byte) : byteOf v.toNat = v := by simp [byteOf]

section Memory
variable {s : State}

theorem memRead_in {n : Nat} (h : n ≤ 255) : s.memRead n = .ok (Memory.read n s.mem) := by
  rw [State.memRead, if_pos (by omega), Int.toNat_natCast]

theorem memRead_out {n : Nat} (h : 256 ≤ n) : s.memRead n = .error ⟨.outOfBoundsAccess, .int n⟩ := by
  rw [State.memRead, if_neg (by omega)]

/-- A memory read answers a byte only in range, and then the cell's. -/
theorem memRead_ok {n : Nat} {b : Byte} (h : s.memRead n = .ok b) : n ≤ 255 ∧ b = Memory.read n s.mem := by
  by_cases hn : n ≤ 255
  · rw [memRead_in hn] at h; cases h; exact ⟨hn, rfl⟩
  · rw [memRead_out (by omega)] at h; cases h

/-- A memory read fails only out of range, and then with that address. -/
theorem memRead_error {n : Nat} {r : Raise} (h : s.memRead n = .error r) :
    256 ≤ n ∧ r = ⟨.outOfBoundsAccess, .int n⟩ := by
  by_cases hn : n ≤ 255
  · rw [memRead_in hn] at h; cases h
  · rw [memRead_out (by omega)] at h; cases h; exact ⟨by omega, rfl⟩

/-- A memory write changes `mem` only, at one address in range. -/
theorem memWrite_ok {t : State} {a : Int} {v : Byte} (h : s.memWrite a v = .ok t) :
    ∃ n : Nat, a = n ∧ n ≤ 255 ∧ t = { s with mem := Memory.write n v s.mem } := by
  unfold State.memWrite at h
  split at h
  · rename_i ha; cases h; exact ⟨a.toNat, by omega, by omega, rfl⟩
  · cases h

/-- A memory write keeps the canonical form. -/
theorem memWrite_wf {t : State} {a : Int} {v : Byte} (h : s.memWrite a v = .ok t) (hs : Memory.wf s.mem = true) :
    Memory.wf t.mem = true := by
  obtain ⟨n, -, hn, rfl⟩ := memWrite_ok h
  exact Memory.write_wf hn v hs

end Memory

section Registers
variable {s : State} {i : Nat}

theorem readReg_in (h : i ≤ 7) : s.readReg i = .ok (s.x[i]'(by omega)) := by
  rw [State.readReg, dif_pos (by omega)]
  simp

theorem readReg_out (h : 8 ≤ i) : s.readReg i = .error ⟨.invalidRegister, .int i⟩ := by
  rw [State.readReg, dif_neg (by omega)]

theorem writeReg_in (h : i ≤ 7) (v : Nat) :
    s.writeReg i v = .ok { s with x := s.x.set i (byteOf v) (by omega) } := by
  rw [State.writeReg, dif_pos (by omega)]
  simp

theorem writeReg_out (h : 8 ≤ i) (v : Nat) : s.writeReg i v = .error ⟨.invalidRegister, .int i⟩ := by
  rw [State.writeReg, dif_neg (by omega)]

end Registers

section Conclude
variable {s : State}

@[simp] theorem conclude_ok (t : State) : s.conclude (.ok t) = .next t := rfl

@[simp] theorem conclude_error (r : Raise) : s.conclude (.error r) = .next (s.takeFault r s.pc) := rfl

/-- A handler always ends in a next state: its own, or the fault it raised, taken in the state it began in. -/
theorem conclude_cases (res : Except Raise State) :
    (∃ t, res = .ok t ∧ s.conclude res = .next t) ∨
      (∃ r, res = .error r ∧ s.conclude res = .next (s.takeFault r s.pc)) := by
  cases res with
  | ok t => exact .inl ⟨t, rfl, rfl⟩
  | error r => exact .inr ⟨r, rfl, rfl⟩

end Conclude

section Alu

@[simp] theorem alu_mul (a b : Byte) : alu .mul a b = .ok (byteOf (a.toNat * b.toNat)) := rfl

/-- The ALU fails only on a tag that is neither ADD nor MUL, and then with that tag. -/
theorem alu_error {tag : AluTag} {a b : Byte} {r : Raise} (h : alu tag a b = .error r) :
    ∃ k, tag = .other k ∧ r = ⟨.unsupportedOperation, .tag tag⟩ := by
  cases tag with
  | add => cases h
  | mul => cases h
  | other k => cases h; exact ⟨k, rfl, rfl⟩

end Alu

section Load
variable {s : State} {bytes : List Byte}

theorem load_fits (h : bytes.length ≤ 256) :
    s.load bytes = { s with mem := Memory.writeBytes s.mem 0 bytes } := by
  rw [State.load, if_pos h]

theorem load_too_large (h : 256 < bytes.length) :
    s.load bytes = { s.takeFault ⟨.programTooLarge, .int bytes.length⟩ 0 with
      mem := Memory.fill (Config.memAfterFailedLoad bytes) 0 256 } := by
  rw [State.load, if_neg (by omega)]

/-- A load, fitting or not, keeps the canonical form. -/
theorem load_wf (h : Memory.wf s.mem = true) : Memory.wf (s.load bytes).mem = true := by
  by_cases hb : bytes.length ≤ 256
  · rw [load_fits hb]; exact Memory.writeBytes_wf (by omega) h
  · rw [load_too_large (by omega)]; exact Memory.fill_wf _

/-- Placing a table word keeps the canonical form, at any `pc` in 0..256. -/
theorem withFetchWord_wf (hp : s.pc ≤ 256) (nbits w : Nat) (h : Memory.wf s.mem = true) :
    Memory.wf (s.withFetchWord nbits w).mem = true :=
  Memory.writeBytes_wf (by have := List.length_take_le (256 - s.pc) (tableBytes nbits w); omega) h

/-- Memory after reset is in canonical form. -/
theorem resetWith_wf (regReset : Vector Byte 8) : Memory.wf (State.resetWith regReset).mem = true := rfl

end Load

end Sys2Proof.Machine
end

