-- ==== Sys2Proof/Laws/PerInstr.lean ====
section
/-! SUPPORT. One statement about every instruction as syntax: its encoding has the length its table entry gives. -/

namespace Sys2Proof.Laws

/-- The first byte of the encoding is a key of the opcode table, and the encoding is that byte and as many operand
bytes as the entry declares (R80, R83). -/
def TableLength.Statement (i : Instr) : Prop :=
  ∃ (op : Byte) (operands : List Byte) (h : Handler),
    encode i = op :: operands ∧ lookup op = some h ∧ operands.length = h.arity

theorem TableLength.ldi (a b : Byte) : TableLength.Statement (.ldi a b) :=
  ⟨0x82#8, [a, b], .binary .ldi, rfl, rfl, rfl⟩

theorem TableLength.mul (a b : Byte) : TableLength.Statement (.mul a b) :=
  ⟨0xA2#8, [a, b], .binary .mul, rfl, rfl, rfl⟩

theorem TableLength.prn (a : Byte) : TableLength.Statement (.prn a) :=
  ⟨0x47#8, [a], .unary .prn, rfl, rfl, rfl⟩

theorem TableLength.hlt : TableLength.Statement .hlt :=
  ⟨0x01#8, [], .nullary .hlt, rfl, rfl, rfl⟩

end Sys2Proof.Laws
end

