-- ==== Sys2Proof/Laws/Step.lean ====
section
/-! SUPPORT. Fetching and stepping: everything each can answer. -/

namespace Sys2Proof.Machine

/-- The fetch answers `i` exactly when the bytes of `encode i` stand at `pc` and all of them are in memory. -/
theorem fetchInstr_ok_iff {s : State} {i : Instr} :
    s.fetchInstr = .ok i ↔
      s.pc + (encode i).length ≤ 256 ∧
        ∀ k (hk : k < (encode i).length), Memory.read (s.pc + k) s.mem = (encode i)[k] := by
  constructor
  · intro h
    have hr := encode_of_decodeWith h
    have hb : ∀ k (hk : k < (encode i).length),
        s.pc + k ≤ 255 ∧ (encode i)[k] = Memory.read (s.pc + k) s.mem := by
      intro k hk
      have := hr k hk
      rw [← Int.natCast_add] at this
      exact memRead_ok this
    have hp := encode_length_pos i
    refine ⟨?_, fun k hk => ((hb k hk).2).symm⟩
    have := (hb ((encode i).length - 1) (by omega)).1
    omega
  · rintro ⟨hl, hb⟩
    refine decodeWith_of_encode fun k hk => ?_
    rw [← Int.natCast_add, memRead_in (by omega), hb k hk]

/-- What a failed fetch says (R101 to R103): an illegal byte at a `pc` in memory, or the first address above 255 among
those the instruction needs. -/
theorem fetchInstr_error {s : State} {r : Raise} (h : s.fetchInstr = .error r) :
    (s.pc ≤ 255 ∧ lookup (Memory.read s.pc s.mem) = none ∧
      r = ⟨.invalidOpcode, .int (Memory.read s.pc s.mem).toNat⟩) ∨
    (∃ k, k ≤ 2 ∧ 256 ≤ s.pc + k ∧ (k = 0 ∨ s.pc + k = 256) ∧
      r = ⟨.outOfBoundsAccess, .int ((s.pc + k : Nat) : Int)⟩) := by
  have hrd : ∀ k : Nat, s.memRead ((s.pc : Int) + (k : Int)) = s.memRead ((s.pc + k : Nat) : Int) := by
    intro k; rw [Int.natCast_add]
  obtain h0 | ⟨op, h0, hn, he⟩ | ⟨op, hd, h0, -, -, h1⟩ | ⟨op, hd, a, h0, -, -, h1, h2⟩ := decodeWith_error h
  · rw [hrd] at h0
    obtain ⟨hb, rfl⟩ := memRead_error h0
    exact .inr ⟨0, by omega, hb, .inl rfl, rfl⟩
  · rw [hrd] at h0
    obtain ⟨hb, rfl⟩ := memRead_ok h0
    exact .inl ⟨hb, hn, he⟩
  · rw [hrd] at h0 h1
    obtain ⟨hb, rfl⟩ := memRead_ok h0
    obtain ⟨hc, rfl⟩ := memRead_error h1
    exact .inr ⟨1, by omega, hc, .inr (by omega), rfl⟩
  · rw [hrd] at h0 h1 h2
    obtain ⟨hb, rfl⟩ := memRead_ok h1
    obtain ⟨hc, rfl⟩ := memRead_error h2
    exact .inr ⟨2, by omega, hc, .inr (by omega), rfl⟩

/-- A step that answers a next state began RUNNING and either ran the instruction it fetched or took the fault of the
fetch. -/
theorem step_next {s t : State} (h : step s = .next t) :
    s.state = .running ∧
      ((∃ i, s.fetchInstr = .ok i ∧ exec i s = .next t) ∨
        (∃ r, s.fetchInstr = .error r ∧ t = s.takeFault r s.pc)) := by
  unfold step at h
  split at h
  · cases h
  · cases h
  · rename_i hs
    refine ⟨hs, ?_⟩
    split at h
    · rename_i i hi; exact .inl ⟨i, hi, h⟩
    · rename_i r hr; cases h; exact .inr ⟨r, hr, rfl⟩

/-- Every instruction ends in a next state: the one its handler reaches, or its fault taken. -/
theorem exec_is_next (i : Instr) (s : State) : ∃ t, exec i s = .next t := by
  cases i with
  | ldi a b => exact (conclude_cases _).elim (fun ⟨t, _, h⟩ => ⟨t, h⟩) fun ⟨r, _, h⟩ => ⟨_, h⟩
  | mul a b => exact (conclude_cases _).elim (fun ⟨t, _, h⟩ => ⟨t, h⟩) fun ⟨r, _, h⟩ => ⟨_, h⟩
  | prn a => exact (conclude_cases _).elim (fun ⟨t, _, h⟩ => ⟨t, h⟩) fun ⟨r, _, h⟩ => ⟨_, h⟩
  | hlt => exact ⟨_, rfl⟩

end Sys2Proof.Machine
end

