-- ==== Sys2Proof/Tests/Slice0.lean ====
section
/-! SUPPORT. Tests: expected results from spec/95_test_vectors.md and the words of 30_encoding.md, and for every
statement of Certificates/Slice0/Obligations.lean with hypotheses a witness that meets them. -/

namespace Sys2Proof.Tests

open Sys2Proof.Machine

/-- The start registers REG of 95_test_vectors.md. -/
def REG : Vector Byte 8 := #v[10, 20, 30, 40, 50, 60, 70, 80]

/-- A RUNNING core with registers REG, the bytes at `pc`, and memory zero elsewhere. -/
def at_ (pc : Nat) (bytes : List Byte) : State :=
  { State.resetWith REG with pc := pc, mem := Memory.writeBytes [] pc bytes }

/-- The next state of an outcome. -/
def next? : Host.Outcome State Fault Refusal → Option State
  | .next s => some s
  | .fault _ => none
  | .refused _ => none

/-- The state after one cycle from `at_`, seen through `f`. -/
def after {α : Type} (pc : Nat) (bytes : List Byte) (f : State → α) : Option α := (next? (step (at_ pc bytes))).map f

/-- `n` bytes to load. -/
def image (n : Nat) : List Byte := List.replicate n 1

theorem image_length (n : Nat) : (image n).length = n := List.length_replicate

/-! ### WellFormed: each check refuses an ill-formed term -/

theorem test_wf_ldi : Instr.wellFormed (.ldi 8 0) = false ∧ Instr.wellFormed (.ldi 7 255) = true := by decide
theorem test_wf_mul_a : Instr.wellFormed (.mul 8 0) = false := by decide
theorem test_wf_mul_b : Instr.wellFormed (.mul 0 8) = false ∧ Instr.wellFormed (.mul 7 7) = true := by decide
theorem test_wf_prn : Instr.wellFormed (.prn 255) = false ∧ Instr.wellFormed (.prn 7) = true := by decide

/-! ### Decoding: words written out bit by bit from Table R86 and Table R80 -/

theorem test_decode_ldi :
    decode [0b10000010, 0b00000011, 0b11111111] = .ok (.ldi 3 255, []) := by decide
theorem test_decode_mul :
    decode [0b10100010, 0b00000010, 0b00000011, 0b00000001] = .ok (.mul 2 3, [1]) := by decide
theorem test_decode_prn : decode [0b01000111, 0b00000101] = .ok (.prn 5, []) := by decide
theorem test_decode_hlt : decode [0b00000001, 0b01000111] = .ok (.hlt, [0x47]) := by decide
/-- Index 8 is not index 0 (R84). -/
theorem test_decode_keeps_index : decode [0x47, 8] = .ok (.prn 8, []) := by decide
/-- The neighbours of the four keys, 0x00 and 0xA0 (V-ILL). -/
theorem test_decode_illegal : ∀ op ∈ ([0x00, 0x02, 0x46, 0x48, 0x80, 0x81, 0x83, 0xA0, 0xA1, 0xA3, 0xFF] : List Byte),
    decode [op, 0, 1] = .error (.invalidOpcode op) := by decide
/-- An illegal byte has no operands to miss; a legal one does. -/
theorem test_decode_missing : decode [0xFF] = .error (.invalidOpcode 0xFF) ∧
    decode [] = .error (.missingByte 0) ∧ decode [0xA2] = .error (.missingByte 1) ∧
    decode [0x82, 0x09] = .error (.missingByte 2) := by decide
/-- The bits above `nbits` are 0. -/
theorem test_table_word_masks : decodeTableWord 8 0x080382 = some (.ldi 0 0) := by decide
theorem test_assembly : Instr.assembly (.ldi 0 8) = some "LDI R0, 8" ∧ Instr.assembly (.mul 1 8) = none := by decide

/-! ### Each instruction, and a step from reset -/

/-- V-LDI 3. -/
theorem test_ldi_top : after 253 [0x82, 0x07, 0xFF] (fun s => (s.x, s.pc, s.state)) =
    some (#v[10, 20, 30, 40, 50, 60, 70, 255], 256, .running) := by decide
/-- V-LDI 4. -/
theorem test_ldi_bad : after 0 [0x82, 0x08, 0x05] (fun s => (s.fault, s.x, s.pc)) =
    some (some ⟨.invalidRegister, .int 8, 0⟩, REG, 0) := by decide
/-- V-MUL 2: both reads see the old value. -/
theorem test_mul_square : after 0 [0xA2, 0x06, 0x06] (fun s => (s.x, s.pc)) =
    some (#v[10, 20, 30, 40, 50, 60, 36, 80], 3) := by decide
/-- V-MUL 6: the first operand is checked first. -/
theorem test_mul_both_bad : after 0 [0xA2, 0x09, 0xC8] (fun s => (s.fault, s.x)) =
    some (some ⟨.invalidRegister, .int 9, 0⟩, REG) := by decide
/-- V-PRN 2. -/
theorem test_prn_top : after 254 [0x47, 0x07] (fun s => (s.out, s.pc, s.state)) =
    some ([80], 256, .running) := by decide
/-- V-PRN 3. -/
theorem test_prn_bad : after 4 [0x47, 0x08] (fun s => (s.fault, s.out, s.pc)) =
    some (some ⟨.invalidRegister, .int 8, 4⟩, [], 4) := by decide
/-- V-HLT 2. -/
theorem test_hlt_top : after 255 [0x01] (fun s => (s.state, s.pc, s.fault)) = some (.halted, 255, none) := by decide
/-- V-HLT 3: no cycle follows. -/
theorem test_hlt_stops : (after 0 [0x01, 0x47, 0x00] fun s => (s.out, next? (step s))) = some ([], none) := by decide

/-- V-ILL: 0xA0 is no ADD; and at 255 an illegal byte is no out-of-range access. -/
theorem test_illegal : after 0 [0xA0, 0x00, 0x01] (fun s => s.fault) = some (some ⟨.invalidOpcode, .int 160, 0⟩) ∧
    after 255 [0xFF] (fun s => s.fault) = some (some ⟨.invalidOpcode, .int 255, 255⟩) := by decide
/-- V-TOP and V-PRIO 1. -/
theorem test_top : after 256 [] (fun s => s.fault) = some (some ⟨.outOfBoundsAccess, .int 256, 256⟩) ∧
    after 254 [0x82, 0x09] (fun s => s.fault) = some (some ⟨.outOfBoundsAccess, .int 256, 254⟩) ∧
    after 255 [0x47] (fun s => s.fault) = some (some ⟨.outOfBoundsAccess, .int 256, 255⟩) := by decide

/-- Every row of the table runs as the first instruction after reset. -/
theorem test_first_after_reset :
    ((next? (step (State.reset.withFetchWord 8 0x82))).map fun s => (s.pc, s.x[0])) = some (3, 0) ∧
    ((next? (step (State.reset.withFetchWord 8 0xA2))).map fun s => s.pc) = some 3 ∧
    ((next? (step (State.reset.withFetchWord 8 0x47))).map fun s => (s.pc, s.out.length)) = some (2, 1) ∧
    ((next? (step (State.reset.withFetchWord 8 0x01))).map fun s => s.state) = some .halted := by decide

/-- With nothing loaded the first cycle takes InvalidOpcode(0) at `pc` 0 (R54). -/
theorem test_reset_alone : (next? (step State.reset)).map (fun s => (s.state, s.fault)) =
    some (.faulted, some ⟨.invalidOpcode, .int 0, 0⟩) := by decide

/-! ### The named operations -/

/-- V-REG. -/
theorem test_register_write_wraps :
    (match (at_ 0 []).writeReg 7 40000 with | .ok s => some s.x[7] | .error _ => none) = some 64 := by decide
/-- V-MEM. -/
theorem test_memory_write_top :
    (match (at_ 0 []).memWrite 255 9 with | .ok s => s.mem | .error _ => []) = [(255, 9)] ∧
    (match (at_ 0 []).memRead 257 with | .ok _ => none | .error r => some r) =
      some ⟨.outOfBoundsAccess, .int 257⟩ := by decide
/-- Writing the value an unlisted cell reads as removes the entry; the list stays sorted. -/
theorem test_memory_canonical : Memory.write 3 0 [(3, 1), (5, 2)] = [(5, 2)] ∧
    Memory.write 4 7 [(3, 1), (5, 2)] = [(3, 1), (4, 7), (5, 2)] := by decide
/-- V-ALU, rows 200 200 and 255 2. -/
theorem test_alu : (match alu .add 200 200 with | .ok r => some r | .error _ => none) = some 144 ∧
    (match alu .mul 200 200 with | .ok r => some r | .error _ => none) = some 64 ∧
    (match alu .mul 255 2 with | .ok r => some r | .error _ => none) = some 254 := by decide
/-- V-LOAD 3 and 5. -/
theorem test_load : (State.launch REG [0x82, 0x00, 0x08, 0x47, 0x00, 0x01]).mem =
      [(0, 0x82), (2, 8), (3, 0x47), (5, 1)] ∧
    (State.launch REG (image 257)).fault = some ⟨.programTooLarge, .int 257, 0⟩ :=
  ⟨by decide, by rw [State.launch, load_too_large (by simp [image_length])]; simp [image_length]⟩
/-- The text form of `out = [0, 72, 255]` (V-PRN). -/
theorem test_render : renderOut [0, 72, 255] = "0\n72\n255\n" := by decide

/-! ### Witnesses: the hypotheses of each statement are met, at the boundary values of its clauses -/

theorem witness_RegisterReadRule : (7 < 8 ∧ 0 < 8) ∧ ((-1 : Int) < 0 ∨ (7 : Int) < -1) ∧ ((8 : Int) < 0 ∨ (7 : Int) < 8) := by
  decide
theorem witness_RegisterWriteRule : (7 < 8 ∧ 0 < 8) ∧ (0 < 8 ∧ 0 ≠ 7) ∧ ((-1 : Int) < 0 ∨ (7 : Int) < -1) ∧
    ((8 : Int) < 0 ∨ (7 : Int) < 8) := by decide
theorem witness_MemoryReadRule : (0 ≤ 255 ∧ 255 ≤ 255) ∧ ((-1 : Int) < 0 ∨ (255 : Int) < -1) ∧
    ((256 : Int) < 0 ∨ (255 : Int) < 256) := by decide
theorem witness_MemoryWriteRule : Memory.wf (at_ 0 [0x82, 0x00, 0x08]).mem = true ∧ (0 ≤ 255 ∧ 255 ≤ 255) ∧
    ((-1 : Int) < 0 ∨ (255 : Int) < -1) ∧ ((256 : Int) < 0 ∨ (255 : Int) < 256) := by decide
theorem witness_LoadRule : Memory.wf (State.resetWith REG).mem = true ∧ ([] : List Byte).length ≤ 256 ∧
    (image 256).length ≤ 256 ∧ 256 < (image 257).length :=
  ⟨rfl, by decide, by simp [image_length], by simp [image_length]⟩
theorem witness_LoadRule_cells : 0 < ([1] : List Byte).length ∧ ([1] : List Byte).length ≤ 1 := by decide

theorem witness_LdiResult : (7#8).toNat < 8 ∧ (0#8).toNat < 8 ∧ (6 < 8 ∧ 6 ≠ (7#8).toNat) := by decide
theorem witness_MulResult : (7#8).toNat < 8 ∧ (7#8).toNat < 8 ∧ (0#8).toNat < 8 ∧ (6 < 8 ∧ 6 ≠ (7#8).toNat) := by
  decide
theorem witness_PrnResult : (7#8).toNat < 8 ∧ (0#8).toNat < 8 := by decide
theorem witness_BadRegisterIndexFaults : (7 < (8#8).toNat ∧ 7 < (255#8).toNat) ∧
    ((7#8).toNat ≤ 7 ∧ 7 < (8#8).toNat) := by decide
theorem witness_FaultExactlyWhenIllFormed :
    (∃ t, exec (.mul 7 0) (at_ 0 []) = .next t ∧ (Instr.mul 7 0).wellFormed = true) ∧
    (∃ t, exec (.mul 7 8) (at_ 0 []) = .next t ∧ (Instr.mul 7 8).wellFormed = false) :=
  ⟨⟨_, rfl, rfl⟩, ⟨_, rfl, rfl⟩⟩

theorem witness_StepRunsDecodedInstruction : (at_ 253 [0xA2, 0x00, 0x01]).state = .running ∧
    decode (at_ 253 [0xA2, 0x00, 0x01]).codeBytes = .ok (.mul 0 1, []) := by decide
theorem witness_StepTakesFetchFault : (at_ 255 [0xFF]).state = .running ∧
    decode (at_ 255 [0xFF]).codeBytes = .error (.invalidOpcode 0xFF) ∧
    decode (at_ 256 []).codeBytes = .error (.missingByte 0) ∧
    decode (at_ 255 [0x47]).codeBytes = .error (.missingByte 1) ∧
    decode (at_ 254 [0x82, 0x09]).codeBytes = .error (.missingByte 2) := by decide
theorem witness_FetchRule : ((at_ 256 []).pc = 256 ∧ (at_ 256 []).state = .running) ∧ (at_ 255 [0x01]).pc ≤ 255 := by
  decide
theorem witness_IllegalOpcodeRule : (at_ 255 [0xA0]).state = .running ∧ (at_ 255 [0xA0]).pc ≤ 255 ∧
    (lookup (Memory.read 255 (at_ 255 [0xA0]).mem)).isNone = true ∧ (lookup 0x82).isSome = true := by decide
theorem witness_OperandPastEndFaults :
    ((at_ 254 [0x82, 0x09]).state = .running ∧ (at_ 254 [0x82, 0x09]).pc ≤ 255 ∧
      lookup (Memory.read (at_ 254 [0x82, 0x09]).pc (at_ 254 [0x82, 0x09]).mem) = some (.binary .ldi) ∧
      255 < (at_ 254 [0x82, 0x09]).pc + (Handler.binary .ldi).arity) ∧
    ((at_ 255 [0x47]).state = .running ∧ (at_ 255 [0x47]).pc ≤ 255 ∧
      lookup (Memory.read (at_ 255 [0x47]).pc (at_ 255 [0x47]).mem) = some (.unary .prn) ∧
      255 < (at_ 255 [0x47]).pc + (Handler.unary .prn).arity) :=
  ⟨⟨rfl, by decide, rfl, by decide⟩, ⟨rfl, by decide, rfl, by decide⟩⟩

/-- Each clause of the three statements about an instruction with operands: past the end, at the end, the last place it
fits with a bad index, and there with good ones. -/
theorem witness_LdiCycle : ((at_ 256 []).state = .running ∧ (at_ 256 []).pc = 256) ∧
    ((at_ 254 [0x82]).state = .running ∧ (at_ 254 [0x82]).pc ≤ 255 ∧
      Memory.read 254 (at_ 254 [0x82]).mem = 0x82 ∧ 254 ≤ (at_ 254 [0x82]).pc) ∧
    ((at_ 253 [0x82, 8, 5]).state = .running ∧ (at_ 253 [0x82, 8, 5]).pc ≤ 253 ∧
      Memory.read 253 (at_ 253 [0x82, 8, 5]).mem = 0x82 ∧ Memory.read 254 (at_ 253 [0x82, 8, 5]).mem = 8 ∧
      Memory.read 255 (at_ 253 [0x82, 8, 5]).mem = 5 ∧ 7 < (8#8).toNat) ∧
    ((at_ 253 [0x82, 7, 5]).state = .running ∧ Memory.read 254 (at_ 253 [0x82, 7, 5]).mem = 7 ∧ (7#8).toNat < 8) := by
  decide
theorem witness_MulCycle : ((at_ 256 []).state = .running ∧ (at_ 256 []).pc = 256) ∧
    ((at_ 255 [0xA2]).state = .running ∧ (at_ 255 [0xA2]).pc ≤ 255 ∧
      Memory.read 255 (at_ 255 [0xA2]).mem = 0xA2 ∧ 254 ≤ (at_ 255 [0xA2]).pc) ∧
    ((at_ 253 [0xA2, 8, 5]).state = .running ∧ (at_ 253 [0xA2, 8, 5]).pc ≤ 253 ∧
      Memory.read 253 (at_ 253 [0xA2, 8, 5]).mem = 0xA2 ∧ Memory.read 254 (at_ 253 [0xA2, 8, 5]).mem = 8 ∧
      Memory.read 255 (at_ 253 [0xA2, 8, 5]).mem = 5 ∧ 7 < (8#8).toNat) ∧
    (Memory.read 254 (at_ 253 [0xA2, 7, 8]).mem = 7 ∧ (7#8).toNat ≤ 7 ∧
      Memory.read 255 (at_ 253 [0xA2, 7, 8]).mem = 8 ∧ 7 < (8#8).toNat) ∧
    (Memory.read 254 (at_ 253 [0xA2, 7, 7]).mem = 7 ∧ Memory.read 255 (at_ 253 [0xA2, 7, 7]).mem = 7 ∧
      (7#8).toNat < 8) := by decide
theorem witness_PrnCycle : ((at_ 256 []).state = .running ∧ (at_ 256 []).pc = 256) ∧
    ((at_ 255 [0x47]).state = .running ∧ (at_ 255 [0x47]).pc = 255 ∧ Memory.read 255 (at_ 255 [0x47]).mem = 0x47) ∧
    ((at_ 254 [0x47, 8]).state = .running ∧ (at_ 254 [0x47, 8]).pc ≤ 254 ∧
      Memory.read 254 (at_ 254 [0x47, 8]).mem = 0x47 ∧ Memory.read 255 (at_ 254 [0x47, 8]).mem = 8 ∧ 7 < (8#8).toNat) ∧
    (Memory.read 255 (at_ 254 [0x47, 7]).mem = 7 ∧ (7#8).toNat < 8) := by decide
theorem witness_HltCycle : ((at_ 256 []).state = .running ∧ (at_ 256 []).pc = 256) ∧
    ((at_ 255 [0x01]).state = .running ∧ (at_ 255 [0x01]).pc ≤ 255 ∧ Memory.read 255 (at_ 255 [0x01]).mem = 0x01) := by
  decide
theorem witness_LdiThenPrnEmitsValue : (7#8).toNat < 8 ∧
    (at_ 251 [0x82, 7, 255, 0x47, 7]).state = .running ∧ (at_ 251 [0x82, 7, 255, 0x47, 7]).pc ≤ 251 ∧
    Memory.read 251 (at_ 251 [0x82, 7, 255, 0x47, 7]).mem = 0x82 ∧
    Memory.read 252 (at_ 251 [0x82, 7, 255, 0x47, 7]).mem = 7 ∧
    Memory.read 253 (at_ 251 [0x82, 7, 255, 0x47, 7]).mem = 255 ∧
    Memory.read 254 (at_ 251 [0x82, 7, 255, 0x47, 7]).mem = 0x47 ∧
    Memory.read 255 (at_ 251 [0x82, 7, 255, 0x47, 7]).mem = 7 := by decide

theorem witness_RunningAlwaysSteps : (at_ 0 []).state = .running := rfl
theorem witness_TerminalStatesRunNoCycle : (at_ 0 []).halt.state = .halted ∧
    ((at_ 0 []).takeFault ⟨.invalidOpcode, .int 0⟩ 0).state = .faulted := by decide

/-- A cycle of each outcome: back to RUNNING, to HALTED, to FAULTED. -/
theorem witness_EngineStateTransitions :
    (∃ t, step (at_ 0 [0x82, 0, 8]) = .next t ∧ t.state = .running) ∧
    (∃ t, step (at_ 0 [0x01]) = .next t ∧ t.state = .halted) ∧
    (∃ t, step (at_ 0 []) = .next t ∧ t.state = .faulted) :=
  ⟨⟨_, rfl, rfl⟩, ⟨_, rfl, rfl⟩, ⟨_, rfl, rfl⟩⟩
theorem witness_FaultingCycleIsPrecise : ∃ t, step (at_ 0 [0xA2, 2, 8]) = .next t ∧ t.state = .faulted :=
  ⟨_, rfl, rfl⟩
theorem witness_NoCycleWritesMemory : ∃ t, step (at_ 0 [0xA2, 2, 7]) = .next t := ⟨_, rfl⟩
theorem witness_OutputOnlyByPrn : ∃ t, step (at_ 254 [0x47, 7]) = .next t ∧ t.out = [80] := ⟨_, rfl, by decide⟩
theorem witness_PcMovesByTableOnly :
    (∃ t, step (at_ 253 [0x82, 7, 1]) = .next t ∧ t.state = .running ∧ t.pc = 256) ∧
    (∃ t, step (at_ 255 [0x01]) = .next t ∧ t.state ≠ .running) :=
  ⟨⟨_, rfl, rfl, rfl⟩, ⟨_, rfl, by decide⟩⟩
theorem witness_EveryRunEnds : (at_ 0 [0x47, 0]).pc ≤ 256 ∧ (at_ 256 []).pc ≤ 256 := by decide
theorem witness_OnlyArityBytesMatter : (at_ 254 [0x47, 7]).state = .running ∧
    (at_ 254 [0x47, 7]).fetchInstr = .ok (.prn 7) ∧
    (∀ k, k < (encode (.prn 7)).length →
      Memory.read (254 + k) [(0, 1), (254, 0x47), (255, 7)] = Memory.read (254 + k) (at_ 254 [0x47, 7]).mem) ∧
    (∃ t, step (at_ 254 [0x47, 7]) = .next t) :=
  ⟨rfl, rfl, by decide, ⟨_, rfl⟩⟩
theorem witness_RegistersNeverSteer : (∃ t, step (at_ 0 [0xA2, 2, 7]) = .next t) ∧
    (∃ u, step { at_ 0 [0xA2, 2, 7] with x := #v[0, 0, 0, 0, 0, 0, 0, 0] } = .next u) :=
  ⟨⟨_, rfl⟩, ⟨_, rfl⟩⟩

/-- A RUNNING core at 253 with a MUL there meets the invariant and takes a step. -/
theorem witness_StepKeepsInvariant : (at_ 253 [0xA2, 2, 7]).Inv ∧ ∃ t, step (at_ 253 [0xA2, 2, 7]) = .next t :=
  ⟨{ mem_wf := by decide
     pc_range := by decide
     fault_iff := ⟨fun h => absurd rfl h, fun h => by cases h⟩
     record := by intro r h; cases h
     halted_at := by intro h; cases h }, ⟨_, rfl⟩⟩
theorem witness_ResetSession : (Session.mk .afterReset (State.resetWith REG)).Inv :=
  { core :=
      { mem_wf := rfl
        pc_range := by decide
        fault_iff := ⟨fun h => absurd rfl h, fun h => by cases h⟩
        record := by intro r h; cases h
        halted_at := by intro h; cases h }
    after_reset := fun _ => ⟨REG, rfl⟩
    loaded := by intro h; cases h }
theorem witness_ActionKeepsSessionInvariant : (Session.mk .afterReset (State.resetWith REG)).Inv ∧
    (∃ d, (Session.mk .afterReset (State.resetWith REG)).act (.load [0x01]) = some d) :=
  ⟨witness_ResetSession, ⟨_, rfl⟩⟩
/-- A session that has halted at once has a move, reset, and one that has failed to load another, run. -/
theorem witness_ResetIsOnlyWayOut :
    (Session.mk .started (at_ 0 [0x01]).halt).Inv ∧
    (Session.mk .started (at_ 0 [0x01]).halt).core.state ≠ .running ∧
    (∃ d, (Session.mk .started (at_ 0 [0x01]).halt).act (.reset REG) = some d) ∧
    (∃ d, (Session.mk .loaded (State.launch REG (image 257))).act .run = some d ∧
      d.core.state ≠ .running) :=
  ⟨{ core :=
      { mem_wf := by decide
        pc_range := by decide
        fault_iff := ⟨fun h => absurd rfl h, fun h => by cases h⟩
        record := by intro r h; cases h
        halted_at := fun _ => by decide }
     after_reset := by intro h; cases h
     loaded := by intro h; cases h }, by decide, ⟨_, rfl⟩,
    ⟨_, rfl, by
      show (State.launch REG (image 257)).state ≠ _
      rw [State.launch, load_too_large (by simp [image_length])]
      simp⟩⟩
theorem witness_HostActionsInOrder :
    ((Session.mk .afterReset (at_ 0 [])).act (.load [])).isSome = true ∧
    ((Session.mk .loaded (at_ 0 [])).act .run).isSome = true ∧
    ((Session.mk .afterReset (at_ 0 [])).act .run).isSome = false ∧
    ((Session.mk .started (at_ 0 [])).act .cycle).isSome = true := by decide
theorem witness_ResultExactlyWhenOver :
    (Session.mk .started (at_ 0 [0x01]).halt).core.state = .halted ∧
    (Session.mk .started ((at_ 0 []).takeFault ⟨.invalidOpcode, .int 0⟩ 0)).core.state = .faulted ∧
    (Session.mk .started (at_ 0 [])).core.state = .running := by decide

end Sys2Proof.Tests
end

section
/-! Laws of the instructions: the register file at every integer index, the result of each handler for operands that
name a register and for operands that do not, and what one cycle can do. -/

namespace Sys2Proof.Machine

/-! ### The register file at every integer index (R23, R24) -/

theorem toNat_byteOf (v : Nat) : (byteOf v).toNat = v % 256 := by simp [byteOf]

theorem readReg_outside (s : State) {i : Int} (h : i < 0 ∨ 7 < i) :
    s.readReg i = .error ⟨.invalidRegister, .int i⟩ := by
  rw [State.readReg, dif_neg (by omega)]

theorem writeReg_outside (s : State) {i : Int} (h : i < 0 ∨ 7 < i) (v : Nat) :
    s.writeReg i v = .error ⟨.invalidRegister, .int i⟩ := by
  rw [State.writeReg, dif_neg (by omega)]

/-! ### The result of each handler (R120, R135, R150, R160, R175) -/

section Exec
variable (s : State) {a b : Byte}

theorem exec_ldi (ha : a.toNat < 8) :
    exec (.ldi a b) s = .next { s with x := s.x.set a.toNat b, pc := s.pc + 3 } := by
  rw [exec, execLdi, writeReg_in (by omega), byteOf_toNat]
  rfl

theorem exec_ldi_bad (ha : 8 ≤ a.toNat) :
    exec (.ldi a b) s = .next (s.takeFault ⟨.invalidRegister, .int a.toNat⟩ s.pc) := by
  rw [exec, execLdi, writeReg_out ha]
  rfl

theorem exec_mul (ha : a.toNat < 8) (hb : b.toNat < 8) :
    exec (.mul a b) s = .next { s with
      x := s.x.set a.toNat (byteOf (s.x[a.toNat].toNat * s.x[b.toNat].toNat)), pc := s.pc + 3 } := by
  rw [exec, execMul, readReg_in (by omega), readReg_in (by omega)]
  simp only [alu_mul, bind, Except.bind]
  rw [writeReg_in (by omega), byteOf_toNat]
  rfl

/-- The first index is checked before the second is looked at (D6). -/
theorem exec_mul_bad_first (ha : 8 ≤ a.toNat) :
    exec (.mul a b) s = .next (s.takeFault ⟨.invalidRegister, .int a.toNat⟩ s.pc) := by
  rw [exec, execMul, readReg_out ha]
  rfl

theorem exec_mul_bad_second (ha : a.toNat < 8) (hb : 8 ≤ b.toNat) :
    exec (.mul a b) s = .next (s.takeFault ⟨.invalidRegister, .int b.toNat⟩ s.pc) := by
  rw [exec, execMul, readReg_in (by omega), readReg_out hb]
  rfl

theorem exec_prn (ha : a.toNat < 8) :
    exec (.prn a) s = .next { s with out := s.out ++ [s.x[a.toNat]], pc := s.pc + 2 } := by
  rw [exec, execPrn, readReg_in (by omega)]
  rfl

theorem exec_prn_bad (ha : 8 ≤ a.toNat) :
    exec (.prn a) s = .next (s.takeFault ⟨.invalidRegister, .int a.toNat⟩ s.pc) := by
  rw [exec, execPrn, readReg_out ha]
  rfl

theorem exec_hlt : exec .hlt s = .next s.halt := rfl

end Exec

/-! ### Well-formed instructions -/

theorem wellFormed_ldi {a b : Byte} : (Instr.ldi a b).wellFormed = true ↔ a.toNat < 8 := by
  simp [Instr.wellFormed, isRegIndex, Nat.lt_succ_iff]

theorem wellFormed_mul {a b : Byte} : (Instr.mul a b).wellFormed = true ↔ a.toNat < 8 ∧ b.toNat < 8 := by
  simp [Instr.wellFormed, isRegIndex, Nat.lt_succ_iff]

theorem wellFormed_prn {a : Byte} : (Instr.prn a).wellFormed = true ↔ a.toNat < 8 := by
  simp [Instr.wellFormed, isRegIndex, Nat.lt_succ_iff]

/-- An instruction that names a register has at least one operand byte. -/
theorem two_le_encode_length_of_illFormed {i : Instr} (h : i.wellFormed ≠ true) : 2 ≤ (encode i).length := by
  cases i with
  | ldi a b => simp [encode]
  | mul a b => simp [encode]
  | prn a => simp [encode]
  | hlt => exact absurd rfl h

/-- R175: an instruction that names a missing register takes InvalidRegister with one such index. -/
theorem exec_illFormed (s : State) {i : Instr} (h : i.wellFormed ≠ true) :
    ∃ c : Byte, 8 ≤ c.toNat ∧ exec i s = .next (s.takeFault ⟨.invalidRegister, .int c.toNat⟩ s.pc) := by
  cases i with
  | ldi a b =>
    rw [Ne, wellFormed_ldi, not_lt] at h
    exact ⟨a, h, exec_ldi_bad s h⟩
  | mul a b =>
    rw [Ne, wellFormed_mul, not_and, not_lt] at h
    by_cases ha : a.toNat < 8
    · exact ⟨b, h ha, exec_mul_bad_second s ha (h ha)⟩
    · exact ⟨a, by omega, exec_mul_bad_first s (by omega)⟩
  | prn a =>
    rw [Ne, wellFormed_prn, not_lt] at h
    exact ⟨a, h, exec_prn_bad s h⟩
  | hlt => exact absurd rfl h

/-! ### What one cycle can do -/

/-- The states a cycle begun RUNNING in `s` can end in: a fault of the fetch, a fault of a register index, or the
completion of one of the four instructions. -/
inductive CycleResult (s : State) : State → Prop
  | fetchFault {r : Raise} (hf : s.fetchInstr = .error r) : CycleResult s (s.takeFault r s.pc)
  | badRegister {i : Instr} {c : Byte} (hf : s.fetchInstr = .ok i) (hw : i.wellFormed ≠ true) (hc : 8 ≤ c.toNat) :
      CycleResult s (s.takeFault ⟨.invalidRegister, .int c.toNat⟩ s.pc)
  | ldi {a b : Byte} (hf : s.fetchInstr = .ok (.ldi a b)) (ha : a.toNat < 8) :
      CycleResult s { s with x := s.x.set a.toNat b, pc := s.pc + 3 }
  | mul {a b : Byte} (hf : s.fetchInstr = .ok (.mul a b)) (ha : a.toNat < 8) (hb : b.toNat < 8) :
      CycleResult s { s with
        x := s.x.set a.toNat (byteOf (s.x[a.toNat].toNat * s.x[b.toNat].toNat)), pc := s.pc + 3 }
  | prn {a : Byte} (hf : s.fetchInstr = .ok (.prn a)) (ha : a.toNat < 8) :
      CycleResult s { s with out := s.out ++ [s.x[a.toNat]], pc := s.pc + 2 }
  | hlt (hf : s.fetchInstr = .ok .hlt) : CycleResult s s.halt

/-- The handler of the instruction fetched ends in a result of the cycle. -/
theorem exec_cycleResult {s t : State} {i : Instr} (hf : s.fetchInstr = .ok i) (h : exec i s = .next t) :
    CycleResult s t := by
  by_cases hw : i.wellFormed = true
  · cases i with
    | ldi a b =>
      have ha := wellFormed_ldi.1 hw
      cases (exec_ldi s ha).symm.trans h
      exact .ldi hf ha
    | mul a b =>
      obtain ⟨ha, hb⟩ := wellFormed_mul.1 hw
      cases (exec_mul s ha hb).symm.trans h
      exact .mul hf ha hb
    | prn a =>
      have ha := wellFormed_prn.1 hw
      cases (exec_prn s ha).symm.trans h
      exact .prn hf ha
    | hlt =>
      cases (exec_hlt s).symm.trans h
      exact .hlt hf
  · obtain ⟨c, hc, he⟩ := exec_illFormed s hw
    cases he.symm.trans h
    exact .badRegister hf hw hc

/-- A step that answers a next state began RUNNING and ends in a result of the cycle. -/
theorem step_cycleResult {s t : State} (h : step s = .next t) : s.state = .running ∧ CycleResult s t := by
  obtain ⟨hs, ⟨i, hf, he⟩ | ⟨r, hf, rfl⟩⟩ := step_next h
  · exact ⟨hs, exec_cycleResult hf he⟩
  · exact ⟨hs, .fetchFault hf⟩

end Sys2Proof.Machine
end

section
/-! The invariant of the core: what establishes it, and that every step keeps it. -/

namespace Sys2Proof.Machine

/-- A RUNNING core with no fault record has nothing to meet but the two ranges. -/
theorem inv_of_running {s : State} (hm : Memory.wf s.mem = true) (hp : s.pc ≤ 256) (hs : s.state = .running)
    (hf : s.fault = none) : s.Inv where
  mem_wf := hm
  pc_range := hp
  fault_iff := by simp [hs, hf]
  record := by simp [hf]
  halted_at := by simp [hs]

theorem inv_resetWith (regReset : Vector Byte 8) : (State.resetWith regReset).Inv :=
  inv_of_running (resetWith_wf regReset) (Nat.zero_le 256) rfl rfl

section Step
variable {s : State} (hi : s.Inv)
include hi

theorem fault_eq_none_of_running (hs : s.state = .running) : s.fault = none := by
  by_contra hf
  simp [hi.fault_iff.1 hf] at hs

/-- Taking a fault that the rules allow, at the core's own `pc`, keeps the invariant. -/
theorem inv_takeFault {r : Raise} (hr : FaultRecord.possible ⟨r.kind, r.value, s.pc⟩ = true) :
    (s.takeFault r s.pc).Inv where
  mem_wf := hi.mem_wf
  pc_range := hi.pc_range
  fault_iff := by simp
  record := by
    intro q hq
    cases hq
    exact ⟨hr, rfl⟩
  halted_at := by simp

/-- Halting at a HLT byte keeps the invariant of a RUNNING core. -/
theorem inv_halt (hs : s.state = .running) (hf : s.fetchInstr = .ok .hlt) : s.halt.Inv where
  mem_wf := hi.mem_wf
  pc_range := hi.pc_range
  fault_iff := by simp [fault_eq_none_of_running hi hs]
  record := by simp [fault_eq_none_of_running hi hs]
  halted_at := by
    obtain ⟨hl, hb⟩ := fetchInstr_ok_iff.1 hf
    exact fun _ => ⟨Nat.le_of_succ_le_succ hl, hb 0 (encode_length_pos .hlt)⟩

/-- A fetch fails only with a fault whose record the rules allow (R171, R173). -/
theorem possible_of_fetch_error {r : Raise} (hf : s.fetchInstr = .error r) :
    FaultRecord.possible ⟨r.kind, r.value, s.pc⟩ = true := by
  have hp := hi.pc_range
  obtain ⟨hpc, hn, rfl⟩ | ⟨k, hk, hlo, hk0, rfl⟩ := fetchInstr_error hf
  · have hb : (Memory.read s.pc s.mem).toNat < 256 := BitVec.isLt _
    simp only [FaultRecord.possible, Int.toNat_natCast, byteOf_toNat, hn, Option.isNone_none, Bool.and_true,
      Bool.and_eq_true, decide_eq_true_eq]
    omega
  · simp only [FaultRecord.possible, Bool.and_eq_true, decide_eq_true_eq]
    omega

omit hi in
/-- A register fault of an instruction fetched whole leaves a record the rules allow (R175): its `pc` is at most 254,
for an instruction that names a register has an operand byte in memory. -/
theorem possible_of_badRegister {i : Instr} {c : Byte} (hf : s.fetchInstr = .ok i) (hw : i.wellFormed ≠ true)
    (hc : 8 ≤ c.toNat) : FaultRecord.possible ⟨.invalidRegister, .int c.toNat, s.pc⟩ = true := by
  obtain ⟨hl, -⟩ := fetchInstr_ok_iff.1 hf
  have h2 := two_le_encode_length_of_illFormed hw
  have hb : c.toNat < 256 := c.isLt
  simp only [FaultRecord.possible, Bool.and_eq_true, decide_eq_true_eq]
  omega

/-- Every result of a cycle meets the invariant. -/
theorem inv_of_cycleResult (hs : s.state = .running) {t : State} (ht : CycleResult s t) : t.Inv := by
  have hn := fault_eq_none_of_running hi hs
  cases ht with
  | fetchFault hf => exact inv_takeFault hi (possible_of_fetch_error hi hf)
  | badRegister hf hw hc => exact inv_takeFault hi (possible_of_badRegister hf hw hc)
  | ldi hf ha => exact inv_of_running hi.mem_wf (fetchInstr_ok_iff.1 hf).1 hs hn
  | mul hf ha hb => exact inv_of_running hi.mem_wf (fetchInstr_ok_iff.1 hf).1 hs hn
  | prn hf ha => exact inv_of_running hi.mem_wf (fetchInstr_ok_iff.1 hf).1 hs hn
  | hlt hf => exact inv_halt hi hs hf

end Step

/-- Settles O40: every result of a cycle meets the invariant. -/
theorem stepKeepsInvariant : Obligations.StepKeepsInvariant := by
  intro s t hi h
  obtain ⟨hs, ht⟩ := step_cycleResult h
  exact inv_of_cycleResult hi hs ht

end Sys2Proof.Machine
end

section
/-! The engine state and the output channel: which cycle can change each (R31, R38). -/

namespace Sys2Proof.Machine

section CycleResult
variable {s t : State} (hs : s.state = .running) (ht : CycleResult s t)
include hs ht

theorem halted_iff_fetched_hlt : t.state = .halted ↔ s.fetchInstr = .ok .hlt := by
  cases ht with
  | fetchFault hf => simp [hf]
  | @badRegister i c hf hw hc =>
    have hne : i ≠ .hlt := by
      rintro rfl
      exact hw rfl
    simp [hf, hne]
  | ldi hf ha => simp [hf, hs]
  | mul hf ha hb => simp [hf, hs]
  | prn hf ha => simp [hf, hs]
  | hlt hf => simp [hf]

theorem record_of_faulted (hft : t.state = .faulted) : ∃ r, t.fault = some r ∧ r.pc = s.pc := by
  cases ht with
  | fetchFault hf => exact ⟨_, rfl, rfl⟩
  | badRegister hf hw hc => exact ⟨_, rfl, rfl⟩
  | ldi hf ha => cases hs.symm.trans hft
  | mul hf ha hb => cases hs.symm.trans hft
  | prn hf ha => cases hs.symm.trans hft
  | hlt hf => cases hft

omit hs in
theorem fetched_wellFormed_of_running (hrun : t.state = .running) :
    ∃ i, s.fetchInstr = .ok i ∧ i ≠ .hlt ∧ i.wellFormed = true := by
  cases ht with
  | fetchFault hf => cases hrun
  | badRegister hf hw hc => cases hrun
  | ldi hf ha => exact ⟨_, hf, nofun, wellFormed_ldi.2 ha⟩
  | mul hf ha hb => exact ⟨_, hf, nofun, wellFormed_mul.2 ⟨ha, hb⟩⟩
  | prn hf ha => exact ⟨_, hf, nofun, wellFormed_prn.2 ha⟩
  | hlt hf => cases hrun

end CycleResult

/-- Settles O32, reading off the engine state of each result of a cycle. -/
theorem engineStateTransitions : Obligations.EngineStateTransitions := by
  intro s t h
  obtain ⟨hs, ht⟩ := step_cycleResult h
  exact ⟨hs, halted_iff_fetched_hlt hs ht, record_of_faulted hs ht, fetched_wellFormed_of_running ht⟩

/-- Settles O35, reading off the output of each result of a cycle. -/
theorem outputOnlyByPrn : Obligations.OutputOnlyByPrn := by
  intro s t h
  obtain ⟨-, ht⟩ := step_cycleResult h
  cases ht with
  | fetchFault hf => exact .inl rfl
  | badRegister hf hw hc => exact .inl rfl
  | ldi hf ha => exact .inl rfl
  | mul hf ha hb => exact .inl rfl
  | prn hf ha => exact .inr ⟨_, ha, hf, rfl⟩
  | hlt hf => exact .inl rfl

end Sys2Proof.Machine
end

section
/-! The register file and reset. -/

namespace Sys2Proof.Machine

/-- Settles O4: the range check of R23, on both sides. -/
theorem registerReadRule : Obligations.RegisterReadRule :=
  fun s => ⟨fun _ h => readReg_in (Nat.le_of_lt_succ h), fun _ h => readReg_outside s h⟩

/-- Settles O5: the range check of R24, on both sides; in range the new register file is the old one with one entry
set. -/
theorem registerWriteRule : Obligations.RegisterWriteRule := by
  intro s v
  refine ⟨fun n h => ⟨_, writeReg_in (Nat.le_of_lt_succ h) v, ?_, ?_, rfl, rfl, rfl, rfl, rfl⟩,
    fun i h => writeReg_outside s h v⟩
  · rw [Vector.getElem_set_self, toNat_byteOf]
  · intro m hm hmn
    exact Vector.getElem_set_ne h hm hmn.symm

/-- Settles O11: the fields of `State.resetWith`, and of the one reset state that `Config.regReset` gives. -/
theorem resetValues : Obligations.ResetValues :=
  ⟨fun regReset => ⟨resetWith_state regReset, fun a => Memory.read_nil a, resetWith_pc regReset,
    resetWith_fault regReset, resetWith_out regReset, resetWith_x regReset⟩, ⟨_, rfl⟩⟩

theorem sessionInv_resetWith (regReset : Vector Byte 8) :
    (Session.mk .afterReset (State.resetWith regReset)).Inv where
  core := inv_resetWith regReset
  after_reset := fun _ => ⟨regReset, rfl⟩
  loaded := nofun

/-- Settles O12: the reset core is RUNNING with no fault, and the session is right after reset. -/
theorem resetMeetsInvariant : Obligations.ResetMeetsInvariant :=
  ⟨fun regReset => ⟨inv_resetWith regReset, sessionInv_resetWith regReset⟩, inv_resetWith _⟩

end Sys2Proof.Machine
end

section
/-! Memory: its reads and writes at every integer address, the loader, and the cycle that never writes it. -/

namespace Sys2Proof.Machine

/-! ### Memory access at every integer address (R50, R51) -/

theorem memRead_outside (s : State) {a : Int} (h : a < 0 ∨ 255 < a) :
    s.memRead a = .error ⟨.outOfBoundsAccess, .int a⟩ := by
  rw [State.memRead, if_neg (by omega)]

theorem memWrite_in (s : State) {n : Nat} (h : n ≤ 255) (v : Byte) :
    s.memWrite n v = .ok { s with mem := Memory.write n v s.mem } := by
  rw [State.memWrite, if_pos (by omega), Int.toNat_natCast]

theorem memWrite_outside (s : State) {a : Int} (h : a < 0 ∨ 255 < a) (v : Byte) :
    s.memWrite a v = .error ⟨.outOfBoundsAccess, .int a⟩ := by
  rw [State.memWrite, if_neg (by omega)]

/-- Settles O6: the range check of R50, on both sides. -/
theorem memoryReadRule : Obligations.MemoryReadRule :=
  fun s => ⟨fun _ h => memRead_in h, fun _ h => memRead_outside s h⟩

/-- Settles O7: the range check of R51, on both sides; in range the new memory is the old one with one cell written. -/
theorem memoryWriteRule : Obligations.MemoryWriteRule := by
  intro s v hm
  refine ⟨fun n h => ⟨_, memWrite_in s h v, ?_, ?_, rfl, rfl, rfl, rfl, rfl⟩, fun a h => memWrite_outside s h v⟩
  · exact Memory.write_wf h v hm
  · exact Memory.read_write v hm

/-! ### The loader (R52, R53, R174) -/

section Load
variable {s : State} {bytes : List Byte}

/-- What a load leaves unchanged, fitting or not. -/
theorem load_frame : (s.load bytes).x = s.x ∧ (s.load bytes).pc = s.pc ∧ (s.load bytes).out = s.out := by
  by_cases h : bytes.length ≤ 256
  · rw [load_fits h]
    exact ⟨rfl, rfl, rfl⟩
  · rw [load_too_large (not_le.1 h)]
    exact ⟨rfl, rfl, rfl⟩

theorem read_load_loaded (hb : bytes.length ≤ 256) (hm : Memory.wf s.mem = true) {a : Nat} (ha : a < bytes.length) :
    Memory.read a (s.load bytes).mem = bytes[a] := by
  rw [load_fits hb, Memory.read_writeBytes (by omega) hm, dif_pos (by omega)]
  rfl

theorem read_load_beyond (hb : bytes.length ≤ 256) (hm : Memory.wf s.mem = true) {a : Nat} (ha : bytes.length ≤ a) :
    Memory.read a (s.load bytes).mem = Memory.read a s.mem := by
  rw [load_fits hb, Memory.read_writeBytes (by omega) hm, dif_neg (by omega)]

/-- A load of no bytes changes nothing. -/
theorem load_nil : s.load [] = s := load_fits (Nat.zero_le 256)

end Load

/-- Settles O10: the cell a fitting load wrote and the cells it left, the record of an oversized one, and the frame of
both. -/
theorem loadRule : Obligations.LoadRule := by
  intro s bytes hm
  refine ⟨fun hb => ⟨fun a ha => read_load_loaded hb hm ha, fun a ha => read_load_beyond hb hm ha, ?_⟩,
    fun hb => ?_, load_frame⟩
  · rw [load_fits hb]
    exact ⟨rfl, rfl⟩
  · rw [load_too_large hb]
    exact ⟨rfl, rfl⟩

/-! ### The cycle and memory (R65, R54) -/

/-- Settles O34: no result of a cycle has another memory. -/
theorem noCycleWritesMemory : Obligations.NoCycleWritesMemory := by
  intro s t h
  obtain ⟨-, ht⟩ := step_cycleResult h
  cases ht with
  | fetchFault hf => rfl
  | badRegister hf hw hc => rfl
  | ldi hf ha => rfl
  | mul hf ha hb => rfl
  | prn hf ha => rfl
  | hlt hf => rfl

theorem step_of_fetch_ok {s : State} {i : Instr} (hs : s.state = .running) (hf : s.fetchInstr = .ok i) :
    step s = exec i s := by
  simp [step, hs, hf]

theorem step_of_fetch_error {s : State} {r : Raise} (hs : s.state = .running) (hf : s.fetchInstr = .error r) :
    step s = .next (s.takeFault r s.pc) := by
  simp [step, hs, hf]

/-- R102: the fetch of a byte with no entry reads no operand. -/
theorem fetchInstr_of_no_entry {s : State} (hp : s.pc ≤ 255) (hn : lookup (Memory.read s.pc s.mem) = none) :
    s.fetchInstr = .error ⟨.invalidOpcode, .int (Memory.read s.pc s.mem).toNat⟩ := by
  have h0 : s.memRead ((s.pc : Int) + (0 : Nat)) = .ok (Memory.read s.pc s.mem) := memRead_in hp
  exact decodeWith_absent (read := fun k => s.memRead (s.pc + k)) h0 hn

/-- Settles O45: the byte 0 has no entry, and every cell of a reset core holds it. -/
theorem zeroMemoryFaultsAtOnce : Obligations.ZeroMemoryFaultsAtOnce := by
  intro regReset
  have hf : (State.resetWith regReset).fetchInstr = .error ⟨.invalidOpcode, .int 0⟩ :=
    fetchInstr_of_no_entry (Nat.zero_le 255) rfl
  exact ⟨load_nil, step_of_fetch_error rfl hf⟩

end Sys2Proof.Machine
end

section
/-! The order of the host's actions (Table R210). -/

namespace Sys2Proof.Machine

/-- R100, R108: a cycle runs exactly while RUNNING. -/
theorem step_is_next_iff_running {s : State} : (∃ t, step s = .next t) ↔ s.state = .running := by
  constructor
  · rintro ⟨t, h⟩
    exact (step_next h).1
  · intro hs
    cases hf : s.fetchInstr with
    | ok i =>
      rw [step_of_fetch_ok hs hf]
      exact exec_is_next i s
    | error r => exact ⟨_, step_of_fetch_error hs hf⟩

section Act
variable {c : Session}

theorem act_load_isSome (bytes : List Byte) : (c.act (.load bytes)).isSome = true ↔ c.phase = .afterReset := by
  cases h : c.phase <;> simp [Session.act, h]

theorem act_run_isSome : (c.act .run).isSome = true ↔ c.phase = .loaded := by
  cases h : c.phase <;> simp [Session.act, h]

theorem act_cycle_started (h : c.phase = .started) :
    (c.act .cycle).isSome = true ↔ ∃ t, step c.core = .next t := by
  cases ht : step c.core <;> simp [Session.act, h, ht]

theorem act_cycle_isSome :
    (c.act .cycle).isSome = true ↔ c.phase = .started ∧ c.core.state = .running := by
  cases h : c.phase with
  | afterReset => simp [Session.act, h]
  | loaded => simp [Session.act, h]
  | started => rw [act_cycle_started h, step_is_next_iff_running, eq_self, true_and]

end Act

/-- Settles O43: one equivalence per action; a reset has its move in every phase. -/
theorem hostActionsInOrder : Obligations.HostActionsInOrder :=
  fun _ => ⟨act_load_isSome, act_run_isSome, act_cycle_isSome, fun _ => rfl⟩

end Sys2Proof.Machine
end

section
/-! The decoder as the inverse of the encoder (R80, R84, R86, R89), and which instructions fault (R88, R175). -/

namespace Sys2Proof

/-! ### Decoding a byte sequence -/

section DecodeBytes
variable {bytes rest : List Byte} {i : Instr}

theorem byteAt_eq_ok_iff {k : Nat} {b : Byte} : byteAt bytes k = .ok b ↔ bytes[k]? = some b := by
  cases h : bytes[k]? <;> simp [byteAt, h]

/-- The decoder reads `i` exactly when the sequence begins with the bytes of `i`. -/
theorem decodeWith_byteAt_iff_prefix :
    decodeWith (byteAt bytes) DecodeError.invalidOpcode = .ok i ↔ encode i <+: bytes := by
  rw [List.prefix_iff_getElem?]
  constructor
  · exact fun h k hk => byteAt_eq_ok_iff.1 (encode_of_decodeWith h k hk)
  · exact fun h => decodeWith_of_encode fun k hk => byteAt_eq_ok_iff.2 (h k hk)

/-- A sequence decodes to what the decoder reads and to what is left after that instruction's own bytes. -/
theorem decode_eq_ok_iff :
    decode bytes = .ok (i, rest) ↔
      decodeWith (byteAt bytes) DecodeError.invalidOpcode = .ok i ∧ bytes.drop (encode i).length = rest := by
  unfold decode
  cases decodeWith (byteAt bytes) DecodeError.invalidOpcode with
  | error e => simp
  | ok j =>
    simp only [Except.ok.injEq, Prod.mk.injEq]
    exact and_congr_right fun hj => by rw [hj]

/-- Settles O2: the bytes of `i` are a prefix of the sequence, and the rest is what follows that prefix. -/
theorem decodeInvertsEncode : Obligations.DecodeInvertsEncode := by
  intro bytes i rest
  rw [decode_eq_ok_iff, decodeWith_byteAt_iff_prefix]
  constructor
  · rintro ⟨hp, rfl⟩
    exact (List.prefix_iff_eq_append.1 hp).symm
  · rintro rfl
    exact ⟨List.prefix_append _ _, List.drop_left⟩

end DecodeBytes

theorem decode_encode_append (i : Instr) (rest : List Byte) : decode (encode i ++ rest) = .ok (i, rest) :=
  (decodeInvertsEncode _ i rest).2 rfl

/-! ### The opcode table (R86) and its words -/

/-- A table word whose bytes begin with those of `i` decodes to `i`. -/
theorem decodeTableWord_of_bytes {nbits w : Nat} {i : Instr} {rest : List Byte}
    (h : tableBytes nbits w = encode i ++ rest) : decodeTableWord nbits w = some i := by
  simp only [decodeTableWord, h, decode_encode_append]

/-- Settles O1: the bytes of each word are the encoding of its instruction, then the zero bytes above it. -/
theorem tableWordsDecode : Obligations.TableWordsDecode :=
  ⟨decodeTableWord_of_bytes (rest := []) rfl, decodeTableWord_of_bytes (rest := []) rfl,
    decodeTableWord_of_bytes (rest := [0]) rfl, decodeTableWord_of_bytes (rest := [0, 0]) rfl,
    decode_encode_append (.ldi 0 8) [0x47, 0x00, 0x01]⟩

/-- Settles O3, by the five answers of the table. -/
theorem opcodeTableAnswers : Obligations.OpcodeTableAnswers := by
  intro op
  obtain rfl | rfl | rfl | rfl | ⟨hn, h1, h2, h3, h4⟩ := lookup_cases op
  · rfl
  · rfl
  · rfl
  · rfl
  · simp [hn, h1, h2, h3, h4]

end Sys2Proof

namespace Sys2Proof.Machine

/-! ### Faults and well-formedness (R88, R175, R203) -/

/-- A well-formed instruction leaves the fault record alone, and the engine state too unless it is HLT. -/
theorem exec_wellFormed {i : Instr} {s t : State} (hw : i.wellFormed = true) (h : exec i s = .next t) :
    t.fault = s.fault ∧ (t.state = s.state ∨ i = .hlt) := by
  cases i with
  | ldi a b =>
    cases (exec_ldi s (wellFormed_ldi.1 hw)).symm.trans h
    exact ⟨rfl, .inl rfl⟩
  | mul a b =>
    obtain ⟨ha, hb⟩ := wellFormed_mul.1 hw
    cases (exec_mul s ha hb).symm.trans h
    exact ⟨rfl, .inl rfl⟩
  | prn a =>
    cases (exec_prn s (wellFormed_prn.1 hw)).symm.trans h
    exact ⟨rfl, .inl rfl⟩
  | hlt =>
    cases (exec_hlt s).symm.trans h
    exact ⟨halt_fault s, .inr rfl⟩

/-- Settles O19: the two kinds of instruction, one lemma each; the bad index is a byte, so at most 255. -/
theorem faultExactlyWhenIllFormed : Obligations.FaultExactlyWhenIllFormed := by
  intro i s t h
  refine ⟨fun hw => exec_wellFormed hw h, fun hw => ?_⟩
  obtain ⟨c, hc, he⟩ := exec_illFormed s (ne_true_of_eq_false hw)
  cases he.symm.trans h
  have hlt : c.toNat < 256 := c.isLt
  exact ⟨c.toNat, by omega, by omega, rfl⟩

end Sys2Proof.Machine
end

section
/-! Fetch, decode and operand read on the machine: where the fetch agrees with the decoder of byte sequences, and the
addresses at which it faults (R101 to R103). -/

namespace Sys2Proof.Machine

section Read
variable {s : State} {k : Nat}

theorem memRead_offset_in (h : s.pc + k ≤ 255) : s.memRead (s.pc + k) = .ok (Memory.read (s.pc + k) s.mem) := by
  rw [← Int.natCast_add, memRead_in h]

theorem memRead_offset_out (h : 256 ≤ s.pc + k) :
    s.memRead (s.pc + k) = .error ⟨.outOfBoundsAccess, .int (s.pc + k)⟩ := by
  rw [← Int.natCast_add, memRead_out h]

end Read

/-! ### The fetch is the decoder of byte sequences at the bytes from `pc` up -/

/-- The fault of a cycle at `pc0` whose bytes do not decode (R101 to R103). -/
def raiseOf (pc0 : Nat) : DecodeError → Raise
  | .invalidOpcode op => ⟨.invalidOpcode, .int op.toNat⟩
  | .missingByte k => ⟨.outOfBoundsAccess, .int (pc0 + k)⟩

/-- The bytes from `pc` up end after the third, or at address 255. -/
theorem codeBytes_eq (s : State) :
    s.codeBytes = (List.range (min 3 (256 - s.pc))).map fun k => Memory.read (s.pc + k) s.mem := by
  have hlt : ∀ k, decide (s.pc + k ≤ 255) = decide (k < 256 - s.pc) := fun k => decide_eq_decide.2 (by omega)
  simp only [State.codeBytes, hlt, ← List.Ico.zero_bot, List.Ico.filter_lt]

/-- An offset an instruction can reach reads the same byte through memory and through the bytes from `pc` up, or fails
in both. -/
theorem memRead_eq_mapError_byteAt (s : State) {k : Nat} (hk : k ≤ 2) :
    s.memRead (s.pc + k) = (byteAt s.codeBytes k).mapError (raiseOf s.pc) := by
  by_cases h : s.pc + k ≤ 255
  · have hlt : k < s.codeBytes.length := by simp [codeBytes_eq]; omega
    rw [memRead_offset_in h, byteAt_of_lt hlt]
    simp [codeBytes_eq, Except.mapError]
  · have hge : s.codeBytes.length ≤ k := by simp [codeBytes_eq]; omega
    rw [memRead_offset_out (by omega), byteAt_of_ge hge]
    rfl

/-- The decoder carries a renaming of the errors of its reads to its own error. -/
theorem decodeWith_mapError {ε ε' : Type} (f : ε → ε') {read : Nat → Except ε Byte} {read' : Nat → Except ε' Byte}
    (h : ∀ k, k ≤ 2 → read' k = (read k).mapError f) (absent : Byte → ε) :
    decodeWith read' (fun op => f (absent op)) = (decodeWith read absent).mapError f := by
  unfold decodeWith
  rw [h 0 (by omega), h 1 (by omega), h 2 (by omega)]
  cases read 0 with
  | error e => rfl
  | ok op =>
    simp only [Except.mapError]
    cases lookup op with
    | none => rfl
    | some hd =>
      cases hd with
      | nullary i => rfl
      | unary build => cases read 1 <;> rfl
      | binary build =>
        cases read 1 with
        | error e => rfl
        | ok a => cases read 2 <;> rfl

theorem fetchInstr_eq_mapError (s : State) :
    s.fetchInstr = (decodeWith (byteAt s.codeBytes) DecodeError.invalidOpcode).mapError (raiseOf s.pc) :=
  decodeWith_mapError (raiseOf s.pc) (fun _ hk => memRead_eq_mapError_byteAt s hk) DecodeError.invalidOpcode

theorem fetchInstr_of_decode_ok {s : State} {i : Instr} {rest : List Byte} (h : decode s.codeBytes = .ok (i, rest)) :
    s.fetchInstr = .ok i := by
  rw [fetchInstr_eq_mapError, (decode_eq_ok_iff.1 h).1]
  rfl

theorem decodeWith_of_decode_error {bytes : List Byte} {e : DecodeError} (h : decode bytes = .error e) :
    decodeWith (byteAt bytes) DecodeError.invalidOpcode = .error e := by
  unfold decode at h
  split at h
  · rename_i hd
    cases h
    exact hd
  · cases h

theorem fetchInstr_of_decode_error {s : State} {e : DecodeError} (h : decode s.codeBytes = .error e) :
    s.fetchInstr = .error (raiseOf s.pc e) := by
  rw [fetchInstr_eq_mapError, decodeWith_of_decode_error h]
  rfl

/-! ### The addresses at which the fetch faults (R101, R103) -/

theorem fetchInstr_of_pc_outside {s : State} (hp : 256 ≤ s.pc) :
    s.fetchInstr = .error ⟨.outOfBoundsAccess, .int s.pc⟩ := by
  have h0 : s.memRead ((s.pc : Int) + (0 : Nat)) = .error ⟨.outOfBoundsAccess, .int s.pc⟩ := memRead_out hp
  exact decodeWith_no_opcode h0

theorem handler_arity_le (hd : Handler) : hd.arity ≤ 2 := by cases hd <;> simp [Handler.arity]

/-- An entry whose operands reach past address 255 makes the fetch refuse address 256: the first operand from 255, the
second from 254 once the first is read. -/
theorem fetchInstr_of_operand_outside {s : State} {hd : Handler} (hp : s.pc ≤ 255)
    (hl : lookup (Memory.read s.pc s.mem) = some hd) (hout : 255 < s.pc + hd.arity) :
    s.fetchInstr = .error ⟨.outOfBoundsAccess, .int 256⟩ := by
  have har := handler_arity_le hd
  have h0 : s.memRead ((s.pc : Int) + (0 : Nat)) = .ok (Memory.read s.pc s.mem) := memRead_in hp
  have hrefused : ∀ k : Nat, s.pc + k = 256 →
      s.memRead ((s.pc : Int) + k) = .error ⟨.outOfBoundsAccess, .int 256⟩ := by
    intro k hk
    rw [memRead_offset_out hk.ge, ← Int.natCast_add, hk]
    rfl
  by_cases hlast : s.pc = 255
  · exact decodeWith_no_operand_a h0 hl (by omega) (hrefused 1 (by omega))
  · exact decodeWith_no_operand_b h0 hl (by omega)
      (memRead_offset_in (k := 1) (by omega)) (hrefused 2 (by omega))

end Sys2Proof.Machine
end

section
/-! The cycle of the engine (R100 to R112): what starts it, how it faults, and that every run ends. -/

namespace Sys2Proof.Machine

/-! ### Fetch and decode -/

/-- Settles O20: the fetch answers what the bytes from `pc` up decode to. -/
theorem stepRunsDecodedInstruction : Obligations.StepRunsDecodedInstruction :=
  fun _ _ _ hs hd => step_of_fetch_ok hs (fetchInstr_of_decode_ok hd)

/-- Settles O21: the fetch raises the fault that `raiseOf` gives for the decoder's error. -/
theorem stepTakesFetchFault : Obligations.StepTakesFetchFault :=
  fun _ hs => ⟨fun _ hd => step_of_fetch_error hs (fetchInstr_of_decode_error hd),
    fun _ hd => step_of_fetch_error hs (fetchInstr_of_decode_error hd)⟩

/-- Settles O22: the range check of R50 at `pc`, and the fault of the fetch at 256. -/
theorem fetchRule : Obligations.FetchRule := by
  intro s
  refine ⟨fun hp => ⟨?_, fun hs => ?_⟩, memRead_in⟩
  · rw [hp]
    exact memRead_out le_rfl
  · rw [step_of_fetch_error hs (fetchInstr_of_pc_outside hp.ge), State.takeFault, hp]
    rfl

/-- Settles O23: the fetch stops at a byte with no entry, and every entry has one of the three shapes of `Handler`. -/
theorem illegalOpcodeRule : Obligations.IllegalOpcodeRule :=
  ⟨fun _ hs hp hn => step_of_fetch_error hs (fetchInstr_of_no_entry hp hn), fun _ hd _ => handler_arity_le hd⟩

/-- Settles O24: the fetch refuses address 256. -/
theorem operandPastEndFaults : Obligations.OperandPastEndFaults :=
  fun _ _ hs hp hl hout => step_of_fetch_error hs (fetchInstr_of_operand_outside hp hl hout)

/-- Settles O30: a cycle runs exactly while RUNNING. -/
theorem runningAlwaysSteps : Obligations.RunningAlwaysSteps :=
  fun _ => step_is_next_iff_running.2

/-! ### Terminal states and faults -/

theorem step_ne_next_of_not_running {s : State} (hs : s.state ≠ .running) (t : State) : step s ≠ .next t :=
  fun h => hs (step_next h).1

/-- R108: from a terminal state a run does nothing. -/
theorem runFor_of_not_running {s : State} (hs : s.state ≠ .running) (n : Nat) : State.runFor n s = s := by
  cases n with
  | zero => rfl
  | succ n =>
    rw [State.runFor]
    split
    · rename_i t h
      exact absurd h (step_ne_next_of_not_running hs t)
    · rfl
    · rfl

theorem runFor_succ_of_step {s t : State} (h : step s = .next t) (n : Nat) :
    State.runFor (n + 1) s = State.runFor n t := by
  rw [State.runFor, h]

/-- Settles O31: neither terminal state is RUNNING. -/
theorem terminalStatesRunNoCycle : Obligations.TerminalStatesRunNoCycle := by
  intro s hs
  have hr : s.state ≠ .running := by
    intro h
    simp [h] at hs
  exact ⟨step_ne_next_of_not_running hr, runFor_of_not_running hr⟩

/-- Settles O33: the results of a cycle that end FAULTED are the two faults, taken in the state the cycle began in. -/
theorem faultingCycleIsPrecise : Obligations.FaultingCycleIsPrecise := by
  intro s t h hft
  obtain ⟨hs, ht⟩ := step_cycleResult h
  cases ht with
  | fetchFault hf => exact ⟨rfl, rfl, rfl, rfl⟩
  | badRegister hf hw hc => exact ⟨rfl, rfl, rfl, rfl⟩
  | ldi hf ha => cases hs.symm.trans hft
  | mul hf ha hb => cases hs.symm.trans hft
  | prn hf ha => cases hs.symm.trans hft
  | hlt hf => cases hft

/-! ### Every run ends (R110) -/

/-- A cycle that leaves the engine RUNNING moves `pc` up by at least 2, and not past 256. -/
theorem pc_of_cycleResult_running {s t : State} (ht : CycleResult s t) (hrun : t.state = .running) :
    s.pc + 2 ≤ t.pc ∧ t.pc ≤ 256 := by
  cases ht with
  | fetchFault hf => cases hrun
  | badRegister hf hw hc => cases hrun
  | ldi hf ha => exact ⟨Nat.le_succ _, (fetchInstr_ok_iff.1 hf).1⟩
  | mul hf ha hb => exact ⟨Nat.le_succ _, (fetchInstr_ok_iff.1 hf).1⟩
  | prn hf ha => exact ⟨le_rfl, (fetchInstr_ok_iff.1 hf).1⟩
  | hlt hf => cases hrun

/-- A run of more cycles than half the distance from `pc` to 256 ends. -/
theorem runFor_not_running {n : Nat} {s : State} (hp : s.pc ≤ 256) (hn : 256 - s.pc < 2 * n) :
    (State.runFor n s).state ≠ .running := by
  induction n generalizing s with
  | zero => omega
  | succ n ih =>
    by_cases hs : s.state = .running
    · obtain ⟨t, h⟩ := step_is_next_iff_running.2 hs
      rw [runFor_succ_of_step h]
      by_cases hrun : t.state = .running
      · obtain ⟨hlo, hhi⟩ := pc_of_cycleResult_running (step_cycleResult h).2 hrun
        exact ih hhi (by omega)
      · rwa [runFor_of_not_running hrun]
    · rwa [runFor_of_not_running hs]

/-- Settles O37: the bound of R110 is more than half the distance to 256. -/
theorem everyRunEnds : Obligations.EveryRunEnds :=
  fun _ hp => runFor_not_running hp (by omega)

/-! ### What a cycle reads of memory (R112) -/

/-- The fetch depends on the bytes of the instruction it answers and on no others. -/
theorem fetchInstr_of_agree {s : State} {m : Memory} {i : Instr} (hf : s.fetchInstr = .ok i)
    (hm : ∀ k, k < (encode i).length → Memory.read (s.pc + k) m = Memory.read (s.pc + k) s.mem) :
    State.fetchInstr { s with mem := m } = .ok i := by
  obtain ⟨hl, hb⟩ := fetchInstr_ok_iff.1 hf
  exact fetchInstr_ok_iff.2 ⟨hl, fun k hk => (hm k hk).trans (hb k hk)⟩

/-- No handler reads or writes memory. -/
theorem exec_with_mem {i : Instr} {s t : State} (m : Memory) (h : exec i s = .next t) :
    exec i { s with mem := m } = .next { t with mem := m } := by
  cases i with
  | ldi a b =>
    by_cases ha : a.toNat < 8
    · cases (exec_ldi s ha).symm.trans h
      exact exec_ldi _ ha
    · cases (exec_ldi_bad s (not_lt.1 ha)).symm.trans h
      exact exec_ldi_bad _ (not_lt.1 ha)
  | mul a b =>
    by_cases ha : a.toNat < 8
    · by_cases hb : b.toNat < 8
      · cases (exec_mul s ha hb).symm.trans h
        exact exec_mul _ ha hb
      · cases (exec_mul_bad_second s ha (not_lt.1 hb)).symm.trans h
        exact exec_mul_bad_second _ ha (not_lt.1 hb)
    · cases (exec_mul_bad_first s (not_lt.1 ha)).symm.trans h
      exact exec_mul_bad_first _ (not_lt.1 ha)
  | prn a =>
    by_cases ha : a.toNat < 8
    · cases (exec_prn s ha).symm.trans h
      exact exec_prn _ ha
    · cases (exec_prn_bad s (not_lt.1 ha)).symm.trans h
      exact exec_prn_bad _ (not_lt.1 ha)
  | hlt =>
    cases (exec_hlt s).symm.trans h
    exact exec_hlt _

/-- Settles O38: the other memory gives the same instruction, and its handler does not see the difference. -/
theorem onlyArityBytesMatter : Obligations.OnlyArityBytesMatter := by
  intro s t m i hs hf hm h
  rw [step_of_fetch_ok hs hf] at h
  exact (step_of_fetch_ok (s := { s with mem := m }) hs (fetchInstr_of_agree hf hm)).trans (exec_with_mem m h)

end Sys2Proof.Machine
end

section
/-! LDI (R120, R121): its completion, its whole cycle, and the constant that a PRN then emits. -/

namespace Sys2Proof.Machine

/-- Settles O14: the register file has one entry set, and of the other items only `pc` moves. -/
theorem ldiResult : Obligations.LdiResult := by
  intro a b s ha
  refine ⟨_, exec_ldi s ha, Vector.getElem_set_self ha, fun m hm hma => ?_, rfl, fun _ => rfl, rfl, rfl, rfl, rfl⟩
  exact Vector.getElem_set_ne ha hm hma.symm

/-! ### The fetch of LDI and of PRN, byte by byte (R80, R106) -/

section Fetch
variable {s : State} {a b : Byte}

theorem fetchInstr_ldi (hp : s.pc ≤ 253) (h0 : Memory.read s.pc s.mem = 0x82)
    (h1 : Memory.read (s.pc + 1) s.mem = a) (h2 : Memory.read (s.pc + 2) s.mem = b) :
    s.fetchInstr = .ok (.ldi a b) := by
  refine fetchInstr_ok_iff.2 ⟨Nat.add_le_add_right hp 3, ?_⟩
  rintro (_ | _ | _ | k) hk
  · exact h0
  · exact h1
  · exact h2
  · exact absurd hk (by simp [encode])

theorem fetchInstr_prn (hp : s.pc ≤ 254) (h0 : Memory.read s.pc s.mem = 0x47)
    (h1 : Memory.read (s.pc + 1) s.mem = a) : s.fetchInstr = .ok (.prn a) := by
  refine fetchInstr_ok_iff.2 ⟨Nat.add_le_add_right hp 2, ?_⟩
  rintro (_ | _ | k) hk
  · exact h0
  · exact h1
  · exact absurd hk (by simp [encode])

end Fetch

/-! ### The cycle -/

/-- R101: at `pc` 256 there is no opcode to fetch. -/
theorem step_of_pc_eq_256 {s : State} (hs : s.state = .running) (hp : s.pc = 256) :
    step s = .next (s.takeFault ⟨.outOfBoundsAccess, .int 256⟩ 256) := by
  rw [step_of_fetch_error hs (fetchInstr_of_pc_outside hp.ge), hp]
  rfl

/-- R120: the cycle of an LDI that names a register. -/
theorem step_ldi {s : State} {a b : Byte} (hs : s.state = .running) (hp : s.pc ≤ 253)
    (h0 : Memory.read s.pc s.mem = 0x82) (h1 : Memory.read (s.pc + 1) s.mem = a)
    (h2 : Memory.read (s.pc + 2) s.mem = b) (ha : a.toNat < 8) :
    step s = .next { s with x := s.x.set a.toNat b, pc := s.pc + 3 } := by
  rw [step_of_fetch_ok hs (fetchInstr_ldi hp h0 h1 h2), exec_ldi s ha]

/-- R150: the cycle of a PRN that names a register. -/
theorem step_prn {s : State} {a : Byte} (hs : s.state = .running) (hp : s.pc ≤ 254)
    (h0 : Memory.read s.pc s.mem = 0x47) (h1 : Memory.read (s.pc + 1) s.mem = a) (ha : a.toNat < 8) :
    step s = .next { s with out := s.out ++ [s.x[a.toNat]], pc := s.pc + 2 } := by
  rw [step_of_fetch_ok hs (fetchInstr_prn hp h0 h1), exec_prn s ha]

/-- Settles O25: the fetch fails at 256 and for want of an operand at 254 and 255; up to 253 it answers the LDI, whose
handler checks the index. -/
theorem ldiCycle : Obligations.LdiCycle := by
  intro s hs
  refine ⟨step_of_pc_eq_256 hs, fun hp h0 hend => ?_, fun a b hp h0 h1 h2 => ?_⟩
  · have hl : lookup (Memory.read s.pc s.mem) = some (.binary .ldi) := by rw [h0]; exact lookup_ldi
    have hout : 255 < s.pc + (Handler.binary .ldi).arity := by simp only [Handler.arity]; omega
    exact step_of_fetch_error hs (fetchInstr_of_operand_outside hp hl hout)
  · refine ⟨fun ha => ?_, step_ldi hs hp h0 h1 h2⟩
    rw [step_of_fetch_ok hs (fetchInstr_ldi hp h0 h1 h2), exec_ldi_bad s ha]

/-- Settles O29: the first cycle leaves memory as it is, so the second fetches the PRN three bytes on, and the register
it reads is the one just set. -/
theorem ldiThenPrnEmitsValue : Obligations.LdiThenPrnEmitsValue := by
  intro s r v hr hs hp h0 h1 h2 h3 h4
  have hset : (s.x.set r.toNat v)[r.toNat] = v := Vector.getElem_set_self hr
  have hp' : s.pc + 3 ≤ 254 := by omega
  have hldi := step_ldi hs (by omega) h0 h1 h2 hr
  have hprn := step_prn (s := { s with x := s.x.set r.toNat v, pc := s.pc + 3 }) hs hp' h3 h4 hr
  rw [hset] at hprn
  exact ⟨_, _, hldi, hprn, rfl, hset, rfl, fun m hm hmr => Vector.getElem_set_ne hr hm hmr.symm, rfl, hs, rfl⟩

end Sys2Proof.Machine
end

section
/-! The ALU and MUL (R130 to R135): the results of the ALU, the completion of MUL, and its whole cycle. -/

namespace Sys2Proof.Machine

/-- Settles O8: one clause per tag; the byte answered is the exact integer result reduced modulo 256. -/
theorem aluResults : Obligations.AluResults :=
  fun a b => ⟨⟨_, rfl, toNat_byteOf _⟩, ⟨_, alu_mul a b, toNat_byteOf _⟩, fun _ => rfl⟩

/-- Settles O15: both registers are read before the one entry is set, so `a = b` is no special case; of the other
items only `pc` moves. -/
theorem mulResult : Obligations.MulResult := by
  intro a b s ha hb
  refine ⟨_, exec_mul s ha hb, ?_, fun m hm hma => ?_, rfl, fun _ => rfl, rfl, rfl, rfl, rfl⟩
  · rw [Vector.getElem_set_self ha, toNat_byteOf]
  · exact Vector.getElem_set_ne ha hm hma.symm

/-! ### The fetch of an entry with two operands (R80, R106) -/

section Fetch
variable {s : State} {build : Byte → Byte → Instr} {a b : Byte}

/-- An entry with two operands, all of it in memory, is fetched with the two bytes that follow the opcode. -/
theorem fetchInstr_of_binary_entry (hp : s.pc ≤ 253) (hl : lookup (Memory.read s.pc s.mem) = some (.binary build))
    (h1 : Memory.read (s.pc + 1) s.mem = a) (h2 : Memory.read (s.pc + 2) s.mem = b) :
    s.fetchInstr = .ok (build a b) := by
  have r0 := memRead_offset_in (s := s) (k := 0) (by omega)
  have r1 := memRead_offset_in (s := s) (k := 1) (by omega)
  have r2 := memRead_offset_in (s := s) (k := 2) (by omega)
  rw [Nat.add_zero] at r0
  simp only [State.fetchInstr, decodeWith, r0, hl, r1, h1, r2, h2]

end Fetch

/-! ### The cycle -/

/-- Settles O26: the fetch fails at 256 and for want of an operand at 254 and 255; up to 253 it answers the MUL, whose
handler checks the first index before the second. -/
theorem mulCycle : Obligations.MulCycle := by
  intro s hs
  have hmul : Memory.read s.pc s.mem = 0xA2 → lookup (Memory.read s.pc s.mem) = some (.binary .mul) :=
    fun h0 => h0 ▸ lookup_mul
  refine ⟨step_of_pc_eq_256 hs, fun hp h0 hend => ?_, fun a b hp h0 h1 h2 => ?_⟩
  · have hout : 255 < s.pc + (Handler.binary .mul).arity := by simp only [Handler.arity]; omega
    exact operandPastEndFaults s _ hs hp (hmul h0) hout
  · rw [step_of_fetch_ok hs (fetchInstr_of_binary_entry hp (hmul h0) h1 h2)]
    exact ⟨exec_mul_bad_first s, fun ha => exec_mul_bad_second s (Nat.lt_succ_of_le ha),
      fun ha hb => ⟨_, toNat_byteOf _, exec_mul s ha hb⟩⟩

end Sys2Proof.Machine
end

section
/-! PRN (R150, R151): its completion and its whole cycle. -/

namespace Sys2Proof.Machine

/-- Settles O16: of the six items of state only `out` and `pc` move. -/
theorem prnResult : Obligations.PrnResult :=
  fun _ s ha => ⟨_, exec_prn s ha, rfl, rfl, rfl, fun _ => rfl, rfl, rfl, rfl⟩

/-- Settles O27: the fetch fails at 256 and for want of the operand at 255; up to 254 it answers the PRN, whose handler
checks the index. -/
theorem prnCycle : Obligations.PrnCycle := by
  intro s hs
  refine ⟨step_of_pc_eq_256 hs, fun hp h0 => ?_, fun a hp h0 h1 => ⟨fun ha => ?_, step_prn hs hp h0 h1⟩⟩
  · have hl : lookup (Memory.read s.pc s.mem) = some (.unary .prn) := h0 ▸ lookup_prn
    have hout : 255 < s.pc + (Handler.unary .prn).arity := by simp only [Handler.arity]; omega
    exact operandPastEndFaults s _ hs hp.le hl hout
  · rw [step_of_fetch_ok hs (fetchInstr_prn hp h0 h1), exec_prn_bad s ha]

end Sys2Proof.Machine
end

section
/-! HLT, the program counter and control (R160 to R162): the completion of HLT and its whole cycle, where a cycle leaves
`pc`, and that no register steers control. -/

namespace Sys2Proof.Machine

/-! ### HLT (R160) -/

/-- Settles O17: of the six items of state only `state` changes. -/
theorem hltResult : Obligations.HltResult :=
  fun s => ⟨_, exec_hlt s, halt_state s, halt_pc s, halt_x s, fun _ => rfl, halt_mem s, halt_fault s, halt_out s⟩

/-- HLT has no operand, so its byte alone decides the fetch, at address 255 too. -/
theorem fetchInstr_hlt {s : State} (hp : s.pc ≤ 255) (h0 : Memory.read s.pc s.mem = 0x01) :
    s.fetchInstr = .ok .hlt := by
  refine fetchInstr_ok_iff.2 ⟨Nat.add_le_add_right hp 1, ?_⟩
  rintro (_ | k) hk
  · exact h0
  · exact absurd hk (by simp [encode])

/-- Settles O28: the fetch fails at 256; up to 255 it answers the HLT, which completes in every state. -/
theorem hltCycle : Obligations.HltCycle := by
  intro s hs
  refine ⟨step_of_pc_eq_256 hs, fun hp h0 => ?_⟩
  rw [step_of_fetch_ok hs (fetchInstr_hlt hp h0), exec_hlt s, State.halt]

/-! ### Where a cycle leaves `pc` (R105, R161) -/

theorem tableLength (i : Instr) : Laws.TableLength.Statement i := by
  cases i with
  | ldi a b => exact Laws.TableLength.ldi a b
  | mul a b => exact Laws.TableLength.mul a b
  | prn a => exact Laws.TableLength.prn a
  | hlt => exact Laws.TableLength.hlt

/-- The opcode of the instruction fetched has a table entry, and the entry's arity gives the instruction's length. -/
theorem lookup_of_fetchInstr {s : State} {i : Instr} (hf : s.fetchInstr = .ok i) :
    ∃ hd, lookup (Memory.read s.pc s.mem) = some hd ∧ (encode i).length = 1 + hd.arity := by
  obtain ⟨op, operands, hd, henc, hl, har⟩ := tableLength i
  have hop : Memory.read s.pc s.mem = op := by
    simpa [henc] using (fetchInstr_ok_iff.1 hf).2 0 (encode_length_pos i)
  refine ⟨hd, hop ▸ hl, ?_⟩
  rw [henc, List.length_cons, har, Nat.add_comm]

section CycleResult
variable {s t : State} (ht : CycleResult s t)
include ht

/-- A cycle that ends the run, by HLT or by a fault, leaves `pc` where it was. -/
theorem pc_of_cycleResult_ended (hs : s.state = .running) (hend : t.state ≠ .running) : t.pc = s.pc := by
  cases ht with
  | fetchFault hf => rfl
  | badRegister hf hw hc => rfl
  | ldi hf ha => exact absurd hs hend
  | mul hf ha hb => exact absurd hs hend
  | prn hf ha => exact absurd hs hend
  | hlt hf => rfl

/-- A cycle that leaves the engine RUNNING moves `pc` past the instruction it fetched. -/
theorem pc_past_fetched_of_running (hrun : t.state = .running) :
    ∃ i, s.fetchInstr = .ok i ∧ t.pc = s.pc + (encode i).length := by
  cases ht with
  | fetchFault hf => cases hrun
  | badRegister hf hw hc => cases hrun
  | ldi hf ha => exact ⟨_, hf, rfl⟩
  | mul hf ha hb => exact ⟨_, hf, rfl⟩
  | prn hf ha => exact ⟨_, hf, rfl⟩
  | hlt hf => cases hrun

end CycleResult

/-- Settles O36: `pc` moves by the length of the instruction fetched, which is one more than the arity of its entry. -/
theorem pcMovesByTableOnly : Obligations.PcMovesByTableOnly := by
  intro s t h
  obtain ⟨hs, ht⟩ := step_cycleResult h
  refine ⟨pc_of_cycleResult_ended ht hs, fun hrun => ?_⟩
  obtain ⟨i, hf, hpc⟩ := pc_past_fetched_of_running ht hrun
  obtain ⟨hd, hl, hlen⟩ := lookup_of_fetchInstr hf
  obtain ⟨hlo, hhi⟩ := pc_of_cycleResult_running ht hrun
  exact ⟨hd, hl, by omega, handler_arity_le hd, by omega, hhi⟩

/-! ### No register steers control (R25, R162) -/

/-- Two states agree on everything but the registers and the values emitted. -/
structure SameControl (t u : State) : Prop where
  pc : u.pc = t.pc
  state : u.state = t.state
  fault : u.fault = t.fault
  mem : u.mem = t.mem
  out_length : u.out.length = t.out.length

/-- A handler's index checks read the instruction, not the registers; what it computes from the registers goes to a
register or to the output. -/
theorem exec_with_x {i : Instr} {s t : State} (regs : Vector Byte 8) (h : exec i s = .next t) :
    ∃ u, exec i { s with x := regs } = .next u ∧ SameControl t u := by
  cases i with
  | ldi a b =>
    by_cases ha : a.toNat < 8
    · cases (exec_ldi s ha).symm.trans h
      exact ⟨_, exec_ldi _ ha, rfl, rfl, rfl, rfl, rfl⟩
    · cases (exec_ldi_bad s (not_lt.1 ha)).symm.trans h
      exact ⟨_, exec_ldi_bad _ (not_lt.1 ha), rfl, rfl, rfl, rfl, rfl⟩
  | mul a b =>
    by_cases ha : a.toNat < 8
    · by_cases hb : b.toNat < 8
      · cases (exec_mul s ha hb).symm.trans h
        exact ⟨_, exec_mul _ ha hb, rfl, rfl, rfl, rfl, rfl⟩
      · cases (exec_mul_bad_second s ha (not_lt.1 hb)).symm.trans h
        exact ⟨_, exec_mul_bad_second _ ha (not_lt.1 hb), rfl, rfl, rfl, rfl, rfl⟩
    · cases (exec_mul_bad_first s (not_lt.1 ha)).symm.trans h
      exact ⟨_, exec_mul_bad_first _ (not_lt.1 ha), rfl, rfl, rfl, rfl, rfl⟩
  | prn a =>
    by_cases ha : a.toNat < 8
    · cases (exec_prn s ha).symm.trans h
      exact ⟨_, exec_prn _ ha, rfl, rfl, rfl, rfl, by simp⟩
    · cases (exec_prn_bad s (not_lt.1 ha)).symm.trans h
      exact ⟨_, exec_prn_bad _ (not_lt.1 ha), rfl, rfl, rfl, rfl, rfl⟩
  | hlt =>
    cases (exec_hlt s).symm.trans h
    exact ⟨_, exec_hlt _, rfl, rfl, rfl, rfl, rfl⟩

/-- The fetch reads `pc` and memory only, so with other registers the cycle runs the same instruction or takes the same
fault. -/
theorem step_with_x {s t : State} (regs : Vector Byte 8) (h : step s = .next t) :
    ∃ u, step { s with x := regs } = .next u ∧ SameControl t u := by
  have hfetch : State.fetchInstr { s with x := regs } = s.fetchInstr := rfl
  obtain ⟨hs, ⟨i, hf, he⟩ | ⟨r, hf, rfl⟩⟩ := step_next h
  · rw [step_of_fetch_ok (s := { s with x := regs }) hs (hfetch.trans hf)]
    exact exec_with_x regs he
  · exact ⟨_, step_of_fetch_error hs (hfetch.trans hf), rfl, rfl, rfl, rfl, rfl⟩

/-- Settles O39: the cycle with other registers agrees on control, and a state has only one cycle. -/
theorem registersNeverSteer : Obligations.RegistersNeverSteer := by
  intro s t u regs h hu
  obtain ⟨u', hu', hc⟩ := step_with_x regs h
  cases hu'.symm.trans hu
  exact ⟨hc.pc, hc.state, hc.fault, hc.mem, hc.out_length⟩

end Sys2Proof.Machine
end

section
/-! Taking a fault (R178), and the register index that makes a handler take one (R175). -/

namespace Sys2Proof.Machine

/-- Settles O9: the six items of the state after the fault; it is FAULTED, where no cycle runs. -/
theorem faultEntryRule : Obligations.FaultEntryRule := by
  intro s k v pc0
  have hs : (s.takeFault ⟨k, v⟩ pc0).state ≠ .running := by simp
  exact ⟨_, rfl, takeFault_state .., takeFault_fault .., takeFault_x .., takeFault_mem .., takeFault_out ..,
    takeFault_pc .., step_ne_next_of_not_running hs⟩

/-- Settles O18: each handler checks its register indices in order, before it changes anything. -/
theorem badRegisterIndexFaults : Obligations.BadRegisterIndexFaults :=
  fun _ _ s => ⟨fun ha => ⟨exec_ldi_bad s ha, exec_mul_bad_first s ha, exec_prn_bad s ha⟩,
    fun ha hb => exec_mul_bad_second s (Nat.lt_succ_of_le ha) hb⟩

end Sys2Proof.Machine
end

section
/-! Reset, the load and the session of a host (R200 to R211): the core after the load, what each action leads to, and
what the host gets when the run is over. -/

namespace Sys2Proof.Machine

/-! ### The core after the load (R52, R53, R202) -/

/-- R174: a load that does not fit leaves a record the rules allow. -/
theorem possible_programTooLarge {n : Nat} (h : 256 < n) :
    FaultRecord.possible ⟨.programTooLarge, .int n, 0⟩ = true := by
  simp only [FaultRecord.possible, decide_true, Bool.and_true, decide_eq_true_eq]
  omega

/-- The invariant asks nothing of a FAULTED core's memory but its canonical form. -/
theorem inv_faulted_with_mem {s : State} (hi : s.Inv) (hs : s.state = .faulted) {m : Memory}
    (hm : Memory.wf m = true) : State.Inv { s with mem := m } where
  mem_wf := hm
  pc_range := hi.pc_range
  fault_iff := hi.fault_iff
  record := hi.record
  halted_at := by simp [hs]

theorem inv_launch (regReset : Vector Byte 8) (bytes : List Byte) : (State.launch regReset bytes).Inv := by
  have hr := inv_resetWith regReset
  rw [State.launch]
  by_cases hb : bytes.length ≤ 256
  · have hm := load_wf (bytes := bytes) hr.mem_wf
    rw [load_fits hb] at hm ⊢
    exact inv_of_running hm hr.pc_range rfl rfl
  · have hb := not_le.1 hb
    rw [load_too_large hb]
    exact inv_faulted_with_mem (inv_takeFault hr (possible_programTooLarge hb)) rfl (Memory.fill_wf _)

/-- Settles O13: the launch core is the reset core with its memory written, or with the fault of the load taken. -/
theorem launchMeetsInvariant : Obligations.LaunchMeetsInvariant := inv_launch

/-! ### What an action leads to (Table R210, R201) -/

/-- The moves of a session: each action with the phase it needs and the session it leads to. -/
inductive Move (c : Session) : Action → Session → Prop
  | reset (regReset : Vector Byte 8) : Move c (.reset regReset) ⟨.afterReset, State.resetWith regReset⟩
  | load (bytes : List Byte) (hp : c.phase = .afterReset) : Move c (.load bytes) ⟨.loaded, c.core.load bytes⟩
  | run (hp : c.phase = .loaded) : Move c .run ⟨.started, c.core⟩
  | cycle {t : State} (hp : c.phase = .started) (ht : step c.core = .next t) : Move c .cycle ⟨.started, t⟩

/-- An action that has a move makes one of these. -/
theorem move_of_act {c d : Session} {a : Action} (h : c.act a = some d) : Move c a d := by
  cases a with
  | reset regReset =>
    cases h
    exact .reset regReset
  | load bytes =>
    have hp := (act_load_isSome bytes).1 (Option.isSome_of_eq_some h)
    simp only [Session.act, hp] at h
    cases h
    exact .load bytes hp
  | run =>
    have hp := act_run_isSome.1 (Option.isSome_of_eq_some h)
    simp only [Session.act, hp] at h
    cases h
    exact .run hp
  | cycle =>
    obtain ⟨hp, hs⟩ := act_cycle_isSome.1 (Option.isSome_of_eq_some h)
    obtain ⟨t, ht⟩ := step_is_next_iff_running.2 hs
    simp only [Session.act, hp, ht] at h
    cases h
    exact .cycle hp ht

/-! ### The invariant of a session -/

theorem sessionInv_launch (regReset : Vector Byte 8) (bytes : List Byte) :
    (Session.mk .loaded (State.launch regReset bytes)).Inv where
  core := inv_launch regReset bytes
  after_reset := nofun
  loaded := fun _ => ⟨regReset, bytes, rfl⟩

/-- After the run request a session asks no more than the invariant of its core. -/
theorem sessionInv_started {s : State} (hi : s.Inv) : (Session.mk .started s).Inv where
  core := hi
  after_reset := nofun
  loaded := nofun

/-- Settles O41, one case per move: before the run request the core is the reset core or the launch core, after it the
step keeps the core's invariant. -/
theorem actionKeepsSessionInvariant : Obligations.ActionKeepsSessionInvariant := by
  intro c d a hi h
  cases move_of_act h with
  | reset regReset => exact sessionInv_resetWith regReset
  | load bytes hp =>
    obtain ⟨regReset, hc⟩ := hi.after_reset hp
    rw [hc]
    exact sessionInv_launch regReset bytes
  | run hp => exact sessionInv_started hi.core
  | cycle hp ht => exact sessionInv_started (stepKeepsInvariant _ _ hi.core ht)

/-- Settles O42: a load finds the reset core, which is RUNNING; a run request does not touch the core; and a core that
is not RUNNING has no cycle. -/
theorem resetIsOnlyWayOut : Obligations.ResetIsOnlyWayOut := by
  refine ⟨fun _ _ => rfl, fun c d a hi hs h => ?_⟩
  cases move_of_act h with
  | reset regReset => exact .inl ⟨regReset, rfl⟩
  | load bytes hp =>
    obtain ⟨regReset, hc⟩ := hi.after_reset hp
    exact absurd (hc ▸ resetWith_state regReset) hs
  | run hp => exact .inr rfl
  | cycle hp ht => exact absurd ht (step_ne_next_of_not_running hs _)

/-! ### The result (R204, R180) -/

theorem runOver_eq_true_iff {s : State} : s.runOver = true ↔ s.state = .halted ∨ s.state = .faulted := by
  cases h : s.state <;> simp [State.runOver, h]

theorem runOver_of_running {s : State} (hs : s.state = .running) : s.runOver = false := by
  simp [State.runOver, hs]

/-- Settles O44: both transactions answer under the same test, whether the run is over. -/
theorem resultExactlyWhenOver : Obligations.ResultExactlyWhenOver := by
  refine fun c => ⟨fun h => ?_, fun h => ?_⟩
  · have ho := runOver_eq_true_iff.2 h
    exact ⟨if_pos ho, if_pos ho⟩
  · have ho := ne_true_of_eq_false (runOver_of_running h)
    exact ⟨if_neg ho, if_neg ho⟩

end Sys2Proof.Machine
end
